-- ==== Sys2Proof/Word.lean ====
section
/-! DEFINITION. The Word Value of the Rize-1 (00_scope.md R8 to R10): an unsigned integer tagged with one of six
widths. The bits are held in 128-bit words, "the least width that holds every Word Value" (R9); a value of width `N`
has its bits in positions `N-1` to `0` and zeros above (log 7). -/

namespace Sys2Proof

/-- The host-native unsigned integer of 00_scope.md R9. -/
abbrev Word := BitVec 128

/-- The legal widths of a Word Value (00_scope.md R8); `w1` is the flag. -/
inductive Width where
  | w1 | w8 | w16 | w32 | w64 | w128
  deriving DecidableEq, Repr, Inhabited

/-- The width in bits. -/
def Width.bits : Width → Nat
  | .w1 => 1
  | .w8 => 8
  | .w16 => 16
  | .w32 => 32
  | .w64 => 64
  | .w128 => 128

/-- A Word Value: its width tag and its bits (00_scope.md R8). -/
structure Value where
  width : Width
  bits : Word
  deriving DecidableEq, Repr, Inhabited

/-- `nat(v)`, the conversion to a natural number that "always succeeds" (00_scope.md R9). -/
def Value.nat (v : Value) : Nat := v.bits.toNat

end Sys2Proof
end

