-- ==== Sys2Proof/Syntax.lean ====
section
/-! DEFINITION. The syntax of the Rize-1: register references (10_state.md R23, R30), the text-level form of an
instruction line (30_encoding.md R76, R81), and `Instr`, the instruction as the decoded-instruction latch `IR` holds
it (10_state.md R34): one constructor per row of spec/opcode_table.json, each with the three operand slots that Decode
fills for every opcode. -/

namespace Sys2Proof

/-- One line of program text, without its line feed (30_encoding.md R71). -/
abbrev Line := List Char

/-- The Register File (10_state.md R20); general-purpose registers by number, `ga` is 0 (R22). -/
inductive Reg where
  | pc | mar | mdr | fz | fn | fc | fo
  | gpr (i : Fin 26)
  deriving DecidableEq, Repr, Inhabited

/-- The register identifiers of 10_state.md R30. -/
def Reg.id : Reg → Nat
  | .pc => 0
  | .mar => 1
  | .mdr => 2
  | .fz => 3
  | .fn => 4
  | .fc => 5
  | .fo => 6
  | .gpr i => 32 + i.val

/-- A register reference: a register and a view width (10_state.md R23). -/
structure RegRef where
  reg : Reg
  width : Width
  deriving DecidableEq, Repr, Inhabited

/-- The opcode set (30_encoding.md R79): the sentinel NONE and the 18 opcodes. -/
inductive Opcode where
  | unrecognised
  | mov | add | sub | mul | div | and | or | xor | not | shl | shr
  | st | ld | wdm | jmp | jiz | jin | halt
  deriving DecidableEq, Repr, Inhabited

/-- The numbering of 30_encoding.md R79. -/
def Opcode.code : Opcode → Nat
  | .unrecognised => 0
  | .mov => 1
  | .add => 2
  | .sub => 3
  | .mul => 4
  | .div => 5
  | .and => 6
  | .or => 7
  | .xor => 8
  | .not => 9
  | .shl => 10
  | .shr => 11
  | .st => 12
  | .ld => 13
  | .wdm => 14
  | .jmp => 15
  | .jiz => 16
  | .jin => 17
  | .halt => 18

/-- The line classes of 30_encoding.md R72. -/
inductive LineClass where
  | blank
  | comment
  | label (name : List Char)
  | capturable
  deriving DecidableEq, Repr, Inhabited

/-- What `classify` yields for one token (30_encoding.md R81). -/
inductive Operand where
  | none
  | register (name : List Char)
  | immediate (value : Nat)
  | memAddr (addr : Nat)
  | symbol (name : List Char)
  | malformed
  deriving DecidableEq, Repr, Inhabited

/-- An instruction line after tokenizing and classifying, before any operand is resolved. -/
structure SourceInstr where
  opc : Opcode
  a1 : Operand
  a2 : Operand
  a3 : Operand
  deriving DecidableEq, Repr, Inhabited

/-- An operand slot of `IR` (10_state.md R34): the tag is the constructor; `ref`, `addr`, `name` and the resolved
value `val` stand where the rule says they are present. -/
inductive Slot where
  | none
  | register (ref : RegRef) (val : Value)
  | immediate (val : Value)
  | memAddr (addr : Nat) (val : Value)
  | symbol (name : List Char)
  | malformed
  deriving DecidableEq, Repr, Inhabited

/-- The tag codes of 30_encoding.md R83. -/
def Slot.tagCode : Slot → Nat
  | .none => 0
  | .register _ _ => 1
  | .immediate _ => 2
  | .memAddr _ _ => 3
  | .symbol _ => 4
  | .malformed => 5

/-- The instruction as Decode latches it; `unrecognised` is the sentinel NONE. -/
inductive Instr where
  | unrecognised (s1 s2 s3 : Slot)
  | mov (s1 s2 s3 : Slot)
  | add (s1 s2 s3 : Slot)
  | sub (s1 s2 s3 : Slot)
  | mul (s1 s2 s3 : Slot)
  | div (s1 s2 s3 : Slot)
  | and (s1 s2 s3 : Slot)
  | or (s1 s2 s3 : Slot)
  | xor (s1 s2 s3 : Slot)
  | not (s1 s2 s3 : Slot)
  | shl (s1 s2 s3 : Slot)
  | shr (s1 s2 s3 : Slot)
  | st (s1 s2 s3 : Slot)
  | ld (s1 s2 s3 : Slot)
  | wdm (s1 s2 s3 : Slot)
  | jmp (s1 s2 s3 : Slot)
  | jiz (s1 s2 s3 : Slot)
  | jin (s1 s2 s3 : Slot)
  | halt (s1 s2 s3 : Slot)
  deriving DecidableEq, Repr, Inhabited

/-- `IR.OPC` of a latched instruction. -/
def Instr.opcode : Instr → Opcode
  | .unrecognised _ _ _ => .unrecognised
  | .mov _ _ _ => .mov
  | .add _ _ _ => .add
  | .sub _ _ _ => .sub
  | .mul _ _ _ => .mul
  | .div _ _ _ => .div
  | .and _ _ _ => .and
  | .or _ _ _ => .or
  | .xor _ _ _ => .xor
  | .not _ _ _ => .not
  | .shl _ _ _ => .shl
  | .shr _ _ _ => .shr
  | .st _ _ _ => .st
  | .ld _ _ _ => .ld
  | .wdm _ _ _ => .wdm
  | .jmp _ _ _ => .jmp
  | .jiz _ _ _ => .jiz
  | .jin _ _ _ => .jin
  | .halt _ _ _ => .halt

/-- The latch with a given `OPC` and three slots. -/
def Opcode.instr : Opcode → Slot → Slot → Slot → Instr
  | .unrecognised => .unrecognised
  | .mov => .mov
  | .add => .add
  | .sub => .sub
  | .mul => .mul
  | .div => .div
  | .and => .and
  | .or => .or
  | .xor => .xor
  | .not => .not
  | .shl => .shl
  | .shr => .shr
  | .st => .st
  | .ld => .ld
  | .wdm => .wdm
  | .jmp => .jmp
  | .jiz => .jiz
  | .jin => .jin
  | .halt => .halt

/-- `IR.S1`, `IR.S2`, `IR.S3` of a latched instruction. -/
def Instr.slots : Instr → Slot × Slot × Slot
  | .unrecognised a b c | .mov a b c | .add a b c | .sub a b c | .mul a b c | .div a b c
  | .and a b c | .or a b c | .xor a b c | .not a b c | .shl a b c | .shr a b c
  | .st a b c | .ld a b c | .wdm a b c | .jmp a b c | .jiz a b c | .jin a b c | .halt a b c => (a, b, c)

end Sys2Proof
end

