-- ==== Sys2Proof/Config.lean ====
section
/-! DEFINITION. The configuration (00_scope.md R5), the reference configuration REF16 (R7), and the one free value of
the model. The configuration is plain data and a field of State: it is supplied with RESET and fixed until the next one
(70_reset_and_hazards.md R215), so a claim about every state is a claim about every legal configuration (log 1). -/

namespace Sys2Proof

/-- The implementation parameters of 00_scope.md R5. `LBL`, the label marker, is fixed (`.`). -/
structure Config where
  /-- `W`, the machine word width -/
  w : Width
  /-- `NGPR`, the number of general-purpose registers -/
  ngpr : Nat
  /-- `MEMCAP`, the memory capacity in cells -/
  memcap : Nat
  /-- `DW`, the display width in pixels -/
  dw : Nat
  /-- `DH`, the display height in pixels -/
  dh : Nat
  /-- `K`, the AutoStep batch size -/
  k : Nat
  /-- `CMT`, the comment marker -/
  cmt : List Char
  deriving DecidableEq, Repr, Inhabited

/-- The reference configuration REF16 (00_scope.md R7). -/
def Config.ref16 : Config :=
  { w := .w16, ngpr := 4, memcap := 256, dw := 64, dh := 64, k := 4, cmt := [';'] }

/-- FREE VALUE (log 2). What `IR` holds after the `n`-th Decode error: "the content of `IR` is not specified"
(40_pipeline.md R105, 93_implementation_defined.md U17). It has no body, so nothing can be proved of a value of it. -/
opaque Config.freeLatch : Nat → Instr

end Sys2Proof
end

