-- ==== Sys2Proof/Machine/State.lean ====
section
/-! DEFINITION. The state of the core (10_state.md R20), every piece the spec gives it, as plain data; the two reasons a
step can stop; and the state right after RESET (10_state.md R41, 70_reset_and_hazards.md R215). -/

namespace Sys2Proof.Machine

/-- The cycle state `CYC` (10_state.md R31). -/
inductive Cycle where
  | startup | fetch | decode | execute | autoStep | halt
  deriving DecidableEq, Repr, Inhabited

/-- The error kinds (60_exceptions.md R185). `fetch` and `registerWrite` have no cause in the spec (R186). -/
inductive ErrorKind where
  | fetch | decode | execute | memoryRead | memoryWrite | registerRead | registerWrite | display
  deriving DecidableEq, Repr, Inhabited

/-- One transaction on the pixel-store port: column, row, and the colour's four bytes in order (46_pixel.md R171). -/
structure SetPixel where
  x : BitVec 8
  y : BitVec 8
  r : BitVec 8
  g : BitVec 8
  b : BitVec 8
  a : BitVec 8
  deriving DecidableEq, Repr, Inhabited

/-- The data memory as (address, cell) pairs (20_memory.md R51), addresses strictly rising, no cell listed that is 0,
which is what an unlisted address reads as (R54). The unit is one `W`-bit cell, not a byte (log 6). -/
abbrev Memory := List (Nat × Word)

/-- The state of the core (10_state.md R20), with the configuration it was reset with. -/
structure State where
  /-- the configuration, fixed between two RESETs (00_scope.md R5) -/
  cfg : Config
  /-- `CYC` (10_state.md R31) -/
  cyc : Cycle
  /-- `ga` .. `gz`; the first `NGPR` exist (10_state.md R22, log 17) -/
  gpr : Vector Word 26
  /-- the program counter (10_state.md R26) -/
  pc : Word
  /-- the memory-address register, an ordinary register (10_state.md R27) -/
  mar : Word
  /-- the memory-data register, an ordinary register (10_state.md R27) -/
  mdr : Word
  /-- the zero flag (10_state.md R28) -/
  fz : Bool
  /-- the negative flag (10_state.md R28) -/
  fn : Bool
  /-- the carry flag (10_state.md R28) -/
  fc : Bool
  /-- the overflow flag (10_state.md R28) -/
  fo : Bool
  /-- `MEM` (10_state.md R37, 20_memory.md) -/
  mem : Memory
  /-- `PROG`, the program text as lines (10_state.md R36) -/
  prog : List Line
  /-- `CAP`, the captured line (10_state.md R33) -/
  cap : Line
  /-- `IR`, the decoded-instruction latch (10_state.md R34) -/
  ir : Instr
  /-- `ERR`; `none` is the code 0 (10_state.md R32) -/
  err : Option ErrorKind
  /-- the `SetPixel` transactions made, oldest first (10_state.md R38, log 8) -/
  pixels : List SetPixel
  /-- the model's own counter of free values drawn (log 2) -/
  draws : Nat
  deriving DecidableEq, Repr, Inhabited

/-- A step never stops with a fault: every error of this machine is a NEXT state, with `ERR` set and `CYC` at Halt
(60_exceptions.md R190), so the type has no constructor (log 19). Nothing raises one; that is safe. -/
inductive Fault where
  deriving DecidableEq, Repr

/-- The launches to which the spec gives no meaning and which "a model refuses" (70_reset_and_hazards.md R218), and the
refusal of an instruction that has no meaning yet. -/
inductive Refusal where
  /-- Raised by exec's arm of an instruction without a meaning; no arm does. Safe. -/
  | notModelled (mnemonic : String)
  /-- Raised by a tick and by RESET and LOAD: the configuration is outside the table of 00_scope.md R5 (R6). Safe. -/
  | illegalConfiguration
  /-- Raised by a tick and by LOAD: the text is not 7-bit ASCII (30_encoding.md R71). Safe. -/
  | programNotAscii
  /-- Raised by a tick and by LOAD: more than `2^W - 1` lines (70_reset_and_hazards.md R218). Safe. -/
  | programTooLong
  deriving DecidableEq, Repr

/-- The machine right after RESET with a configuration (10_state.md R41). The registers "do not exist yet"; their fields
hold 0, which no lookup can reach in Startup (log 3). -/
def State.resetWith (c : Config) : State :=
  { cfg := c
    cyc := .startup
    gpr := Vector.replicate 26 0
    pc := 0
    mar := 0
    mdr := 0
    fz := false
    fn := false
    fc := false
    fo := false
    mem := []
    prog := []
    cap := []
    ir := .unrecognised .none .none .none
    err := none
    pixels := []
    draws := 0 }

/-- The machine right after RESET, at the reference configuration (log 1). -/
def State.reset : State := State.resetWith Config.ref16

end Sys2Proof.Machine
end

