-- ==== Sys2Proof/Decode.lean ====
section
/-! DEFINITION. The text form of an instruction (30_encoding.md): cutting text into lines, classing a line, the label
table, cutting a line into tokens, classifying a token, finding a register by name, and AFTER them the encoder that
writes a latched instruction as a line. All of it is a pure function of the text (and of the configuration, which fixes
`CMT`, `W` and `NGPR`); resolving operands against registers and memory is Machine/Operands.lean. -/

namespace Sys2Proof

/-! ### Characters (30_encoding.md R71) -/

/-- "Alphabetic": the 52 ASCII letters. -/
def isLetter (c : Char) : Bool :=
  (decide (65 ≤ c.toNat) && decide (c.toNat ≤ 90)) || (decide (97 ≤ c.toNat) && decide (c.toNat ≤ 122))

/-- "Digit": `0-9`. -/
def isDigit (c : Char) : Bool := decide (48 ≤ c.toNat) && decide (c.toNat ≤ 57)

/-- "Hex digit": `0-9 A-F a-f`. -/
def isHexDigit (c : Char) : Bool :=
  isDigit c || (decide (65 ≤ c.toNat) && decide (c.toNat ≤ 70)) || (decide (97 ≤ c.toNat) && decide (c.toNat ≤ 102))

/-- Whitespace: space, tab, carriage return, vertical tab, form feed. -/
def isSpace (c : Char) : Bool :=
  decide (c.toNat = 32) || decide (c.toNat = 9) || decide (c.toNat = 13) || decide (c.toNat = 11) ||
    decide (c.toNat = 12)

/-- A 7-bit ASCII character. -/
def isAscii (c : Char) : Bool := decide (c.toNat < 128)

def toLower (c : Char) : Char :=
  if 65 ≤ c.toNat ∧ c.toNat ≤ 90 then Char.ofNat (c.toNat + 32) else c

def toUpper (c : Char) : Char :=
  if 97 ≤ c.toNat ∧ c.toNat ≤ 122 then Char.ofNat (c.toNat - 32) else c

/-- The label marker `LBL` (00_scope.md R5). -/
def labelMarker : Char := '.'

/-! ### Lines (30_encoding.md R71, R72) -/

/-- Cut text at each line feed; a line feed at the very end starts no further line (R71). -/
def cutLines : List Char → List Line
  | [] => []
  | c :: cs =>
    if c.toNat = 10 then [] :: cutLines cs
    else
      match cutLines cs with
      | [] => [[c]]
      | l :: ls => (c :: l) :: ls

/-- `trim(s)`: whitespace removed from both ends (R71). -/
def trim (l : List Char) : List Char :=
  ((l.dropWhile isSpace).reverse.dropWhile isSpace).reverse

/-- A label name: 1 to 16 alphabetic characters (R73). -/
def isLabelName (n : List Char) : Bool :=
  decide (1 ≤ n.length) && decide (n.length ≤ 16) && n.all isLetter

/-- The name a trimmed line declares, if it is a label marker followed by a label name and nothing else (R72). -/
def labelDecl : List Char → Option (List Char)
  | [] => none
  | c :: rest => if c = labelMarker && isLabelName rest then some rest else none

/-- The class of a line, by the first test of R72 that succeeds. -/
def lineClass (cmt : List Char) (l : Line) : LineClass :=
  if (trim l).isEmpty then .blank
  else if cmt.isPrefixOf (trim l) then .comment
  else
    match labelDecl (trim l) with
    | some n => .label n
    | none => .capturable

/-! ### The label table (30_encoding.md R74, R75) -/

/-- `LTAB` over the lines from index `i` on: the 1-based number of the LAST line that declares `name`. -/
def labelFrom (cmt name : List Char) : List Line → Nat → Option Nat
  | [], _ => none
  | l :: ls, i =>
    match labelFrom cmt name ls (i + 1) with
    | some n => some n
    | none => if lineClass cmt l = .label name then some (i + 1) else none

/-- `LTAB(name)` of a program (R74); `none` is "absent". -/
def labelTable (cmt : List Char) (prog : List Line) (name : List Char) : Option Nat :=
  labelFrom cmt name prog 0

/-! ### Tokens (30_encoding.md R76) -/

/-- A line split at its first whitespace: the characters before it, and the tokens after it. -/
def splitSpaces : List Char → List Char × List (List Char)
  | [] => ([], [])
  | c :: cs =>
    if isSpace c then
      ([], if (splitSpaces cs).1.isEmpty then (splitSpaces cs).2 else (splitSpaces cs).1 :: (splitSpaces cs).2)
    else (c :: (splitSpaces cs).1, (splitSpaces cs).2)

/-- The non-empty tokens between runs of whitespace. -/
def words (l : List Char) : List (List Char) :=
  if (splitSpaces l).1.isEmpty then (splitSpaces l).2 else (splitSpaces l).1 :: (splitSpaces l).2

/-- `tokens(L)`: the opcode keyword, and the operand tokens up to the first that starts with the comment marker. -/
def tokens (cmt : List Char) (l : Line) : Option (List Char × List (List Char)) :=
  match words (trim l) with
  | [] => none
  | kw :: args => some (kw, args.takeWhile fun t => !cmt.isPrefixOf t)

/-! ### Classifying a token (30_encoding.md R81) -/

def digitValue (c : Char) : Nat := c.toNat - 48

def hexDigitValue (c : Char) : Nat :=
  if c.toNat ≤ 57 then c.toNat - 48 else if c.toNat ≤ 70 then c.toNat - 55 else c.toNat - 87

/-- The number written by digits in a base, first digit most significant. -/
def numeral (base : Nat) (value : Char → Nat) (ds : List Char) : Nat :=
  ds.foldl (fun acc d => acc * base + value d) 0

/-- Test 4: `0x`, one or more hex digits, a value below `2^128`. -/
def hexLiteral : List Char → Option Nat
  | a :: b :: ds =>
    if a = '0' && b = 'x' && !ds.isEmpty && ds.all isHexDigit && decide (numeral 16 hexDigitValue ds < 2 ^ 128)
    then some (numeral 16 hexDigitValue ds) else none
  | _ => none

/-- Test 5: one or more digits, a value below `2^128`. -/
def decimalLiteral (ds : List Char) : Option Nat :=
  if !ds.isEmpty && ds.all isDigit && decide (numeral 10 digitValue ds < 2 ^ 128)
  then some (numeral 10 digitValue ds) else none

/-- Test 6: the label marker and one or more alphabetic characters. -/
def symbolName : List Char → Option (List Char)
  | [] => none
  | c :: rest => if c = labelMarker && !rest.isEmpty && rest.all isLetter then some rest else none

/-- `classify(token)`, the seven tests in order. -/
def classify (cmt tok : List Char) : Operand :=
  if tok.isEmpty then .none
  else if cmt.isPrefixOf tok then .none
  else if tok.all isLetter then .register (tok.map toLower)
  else
    match hexLiteral tok with
    | some a => .memAddr a
    | none =>
      match decimalLiteral tok with
      | some v => .immediate v
      | none =>
        match symbolName tok with
        | some n => .symbol n
        | none => .malformed

/-! ### Opcode keywords (30_encoding.md R78, R79) -/

/-- The keyword of an opcode; for the sentinel, a token that is none of the 18 (log 5). -/
def Opcode.keyword : Opcode → List Char
  | .unrecognised => ['N', 'O', 'N', 'E']
  | .mov => ['M', 'O', 'V']
  | .add => ['A', 'D', 'D']
  | .sub => ['S', 'U', 'B']
  | .mul => ['M', 'U', 'L']
  | .div => ['D', 'I', 'V']
  | .and => ['A', 'N', 'D']
  | .or => ['O', 'R']
  | .xor => ['X', 'O', 'R']
  | .not => ['N', 'O', 'T']
  | .shl => ['S', 'H', 'L']
  | .shr => ['S', 'H', 'R']
  | .st => ['S', 'T']
  | .ld => ['L', 'D']
  | .wdm => ['W', 'D', 'M']
  | .jmp => ['J', 'M', 'P']
  | .jiz => ['J', 'I', 'Z']
  | .jin => ['J', 'I', 'N']
  | .halt => ['H', 'A', 'L', 'T']

/-- The 18 opcodes in the order of R79. -/
def namedOpcodes : List Opcode :=
  [.mov, .add, .sub, .mul, .div, .and, .or, .xor, .not, .shl, .shr, .st, .ld, .wdm, .jmp, .jiz, .jin, .halt]

/-- The opcode whose keyword equals `kw` without regard to case, else the sentinel (R78, R80). -/
def opcodeOf (kw : List Char) : Opcode :=
  (namedOpcodes.find? fun o => o.keyword = kw.map toUpper).getD .unrecognised

/-- The opcode a number of R79 stands for. -/
def opcodeOfCode (n : Nat) : Option Opcode :=
  (Opcode.unrecognised :: namedOpcodes).find? fun o => o.code = n

/-- Tokenize and classify a line; `none` when there is no opcode token (40_pipeline.md R105). -/
def parseLine (cmt : List Char) (l : Line) : Option SourceInstr :=
  (tokens cmt l).map fun t =>
    { opc := opcodeOf t.1
      a1 := classify cmt (t.2.getD 0 [])
      a2 := classify cmt (t.2.getD 1 [])
      a3 := classify cmt (t.2.getD 2 []) }

/-! ### Register names (10_state.md R22, R23, R29) -/

/-- The width a width-section letter selects (10_state.md R23). -/
def sectionWidth (c : Char) : Option Width :=
  if c = 'b' then some .w8
  else if c = 'w' then some .w16
  else if c = 'd' then some .w32
  else if c = 'q' then some .w64
  else none

/-- The number of the general-purpose register a letter names, if it is below `NGPR` (10_state.md R22). -/
def gprOfLetter (ngpr : Nat) (l : Char) : Option (Fin 26) :=
  if h : 97 ≤ l.toNat ∧ l.toNat - 97 < 26 then
    if l.toNat - 97 < ngpr then some ⟨l.toNat - 97, h.2⟩ else none
  else none

/-- `lookup(name)` on a populated Register File (10_state.md R29): the register and view a name selects. -/
def lookupName (c : Config) (name : List Char) : Option RegRef :=
  match name.map toLower with
  | ['p', 'c'] => some { reg := .pc, width := c.w }
  | ['m', 'a', 'r'] => some { reg := .mar, width := c.w }
  | ['m', 'd', 'r'] => some { reg := .mdr, width := c.w }
  | ['f', 'z'] => some { reg := .fz, width := .w1 }
  | ['f', 'n'] => some { reg := .fn, width := .w1 }
  | ['f', 'c'] => some { reg := .fc, width := .w1 }
  | ['f', 'o'] => some { reg := .fo, width := .w1 }
  | ['g', l] =>
    match gprOfLetter c.ngpr l with
    | some i => some { reg := .gpr i, width := c.w }
    | none => none
  | ['g', l, s] =>
    match gprOfLetter c.ngpr l, sectionWidth s with
    | some i, some n => if n.bits ≤ c.w.bits then some { reg := .gpr i, width := n } else none
    | _, _ => none
  | _ => none

/-- The view code of a reference (10_state.md R30): 0 is the register's own width. -/
def RegRef.viewCode (c : Config) (r : RegRef) : Nat :=
  match r.reg with
  | .gpr _ =>
    if r.width = c.w then 0
    else
      match r.width with
      | .w8 => 1
      | .w16 => 2
      | .w32 => 3
      | .w64 => 4
      | .w1 | .w128 => 0
  | _ => 0

/-! ### The encoder: a latched instruction as a line (30_encoding.md R76, R88) -/

/-- The digits of `n` in a base, most significant first; `fuel` bounds their number. -/
def digitsOf (base : Nat) : Nat → Nat → List Nat
  | 0, _ => []
  | fuel + 1, n => if n < base then [n] else digitsOf base fuel (n / base) ++ [n % base]

/-- A digit below 16 as a character. -/
def digitChar (d : Nat) : Char := if d < 10 then Char.ofNat (48 + d) else Char.ofNat (55 + d)

/-- An unsigned decimal literal; 39 digits hold every value below `2^128`. -/
def decimalText (n : Nat) : List Char := (digitsOf 10 39 n).map digitChar

/-- A memory operand: `0x` and hex digits. -/
def hexText (n : Nat) : List Char := '0' :: 'x' :: (digitsOf 16 32 n).map digitChar

/-- The section letter of a view narrower than the word. -/
def sectionLetter : Width → List Char
  | .w8 => ['b']
  | .w16 => ['w']
  | .w32 => ['d']
  | .w64 => ['q']
  | .w1 | .w128 => []

/-- The name of a register reference (10_state.md R22, R23). -/
def regName (c : Config) (r : RegRef) : List Char :=
  match r.reg with
  | .pc => ['p', 'c']
  | .mar => ['m', 'a', 'r']
  | .mdr => ['m', 'd', 'r']
  | .fz => ['f', 'z']
  | .fn => ['f', 'n']
  | .fc => ['f', 'c']
  | .fo => ['f', 'o']
  | .gpr i => 'g' :: Char.ofNat (97 + i.val) :: (if r.width = c.w then [] else sectionLetter r.width)

/-- The text-level operand a slot comes from. A slot keeps no more of an immediate than its `W` bits, so this is the
literal below `2^W` (30_encoding.md R84). -/
def Slot.operand (c : Config) : Slot → Operand
  | .none => .none
  | .register r _ => .register (regName c r)
  | .immediate v => .immediate v.nat
  | .memAddr a _ => .memAddr a
  | .symbol n => .symbol n
  | .malformed => .malformed

/-- The token of an operand, with the blank before it. `0x` alone is a malformed token for every legal `CMT`
(30_encoding.md R82, log 22). -/
def operandText : Operand → List Char
  | .none => []
  | .register n => ' ' :: n
  | .immediate v => ' ' :: decimalText v
  | .memAddr a => ' ' :: hexText a
  | .symbol n => ' ' :: labelMarker :: n
  | .malformed => [' ', '0', 'x']

/-- The text-level form of a latched instruction. -/
def Instr.source (c : Config) (i : Instr) : SourceInstr :=
  { opc := i.opcode
    a1 := i.slots.1.operand c
    a2 := i.slots.2.1.operand c
    a3 := i.slots.2.2.operand c }

/-- The line that writes a latched instruction. -/
def encode (c : Config) (i : Instr) : Line :=
  (i.source c).opc.keyword ++ operandText (i.source c).a1 ++ operandText (i.source c).a2 ++
    operandText (i.source c).a3

/-! ### The numbers of spec/opcode_table.json (30_encoding.md R89) -/

/-- The line a table word stands for: its low five bits are `IR.OPC` (mask 31), the table gives the operands no bits,
so the line is the keyword alone (log 5). -/
def tableLine (w : Nat) : Option Line := (opcodeOfCode (w % 32)).map Opcode.keyword

/-- The instruction the decoder reads from a table word, by way of the word's line. -/
def decodeTableWord (_nbits w : Nat) : Option Instr :=
  match tableLine w with
  | none => none
  | some l =>
    match parseLine Config.ref16.cmt l with
    | some ⟨o, .none, .none, .none⟩ => some (o.instr .none .none .none)
    | _ => none

end Sys2Proof
end

