-- ==== Sys2Proof/WellFormed.lean ====
section
/-! DEFINITION. What is legal: a configuration (00_scope.md R5, R6), a register reference (10_state.md R22, R23), an
operand slot and a latched instruction. An instruction whose tags its format does not allow (30_encoding.md R85) is well
formed: it is an instruction of the machine, and Execute raises an error on it; `Instr.shapeOk` is that separate check. -/

namespace Sys2Proof

/-- The shape of `CMT` (00_scope.md R5): non-empty ASCII, no letter and no whitespace, not starting with `.` or a digit. -/
def legalMarker : List Char → Bool
  | [] => false
  | c :: cs =>
    !(c = labelMarker) && !isDigit c &&
      (c :: cs).all fun x => isAscii x && !isLetter x && !isSpace x

/-- A configuration inside the table of 00_scope.md R5. -/
def Config.legal (c : Config) : Bool :=
  decide (c.w ≠ .w1) && decide (1 ≤ c.ngpr) && decide (c.ngpr ≤ 26) && decide (1 ≤ c.memcap) &&
    decide (c.memcap ≤ 2 ^ 64) && decide (1 ≤ c.dw) && decide (c.dw ≤ 256) && decide (1 ≤ c.dh) &&
    decide (c.dh ≤ 256) && decide (1 ≤ c.k) && legalMarker c.cmt

/-- A width some section letter selects (10_state.md R23). -/
def Width.isSection : Width → Bool
  | .w8 | .w16 | .w32 | .w64 => true
  | .w1 | .w128 => false

/-- The reference names a register of the machine through a view it has (10_state.md R22, R23). -/
def RegRef.ok (c : Config) (r : RegRef) : Bool :=
  match r.reg with
  | .pc | .mar | .mdr => decide (r.width = c.w)
  | .fz | .fn | .fc | .fo => decide (r.width = .w1)
  | .gpr i =>
    decide (i.val < c.ngpr) &&
      (decide (r.width = c.w) || (r.width.isSection && decide (r.width.bits ≤ c.w.bits)))

/-- The value lies in its width. -/
def Value.fits (v : Value) : Bool := decide (v.nat < 2 ^ v.width.bits)

/-- A slot as Decode can leave it (40_pipeline.md R106). -/
def Slot.ok (c : Config) : Slot → Bool
  | .none => true
  | .register r v => r.ok c && decide (v.width = r.width) && v.fits
  | .immediate v => decide (v.width = c.w) && v.fits
  | .memAddr a v => decide (a < c.memcap) && decide (v.width = c.w) && v.fits
  | .symbol n => !n.isEmpty && n.all isLetter
  | .malformed => true

/-- An empty slot is followed by empty slots only: operand tokens are consecutive (30_encoding.md R76). -/
def slotsInOrder (s1 s2 s3 : Slot) : Bool :=
  (decide (s1 ≠ .none) || decide (s2 = .none)) && (decide (s2 ≠ .none) || decide (s3 = .none))

/-- An instruction that some line of text decodes to. -/
def Instr.wellFormed (c : Config) (i : Instr) : Bool :=
  slotsInOrder i.slots.1 i.slots.2.1 i.slots.2.2 &&
    i.slots.1.ok c && i.slots.2.1.ok c && i.slots.2.2.ok c

/-- The tag is Register. -/
def Slot.isReg : Slot → Bool
  | .register _ _ => true
  | _ => false

/-- The tag is Register or MemAddr. -/
def Slot.isRM : Slot → Bool
  | .register _ _ | .memAddr _ _ => true
  | _ => false

/-- The tag is Register or Immediate. -/
def Slot.isRI : Slot → Bool
  | .register _ _ | .immediate _ => true
  | _ => false

/-- The tag is Register, Immediate or MemAddr. -/
def Slot.isRIM : Slot → Bool
  | .register _ _ | .immediate _ | .memAddr _ _ => true
  | _ => false

/-- The tag is Symbol. -/
def Slot.isSym : Slot → Bool
  | .symbol _ => true
  | _ => false

/-- The table of 30_encoding.md R85: every slot the format uses carries an allowed tag. The sentinel has no format; its
only effect is the error of 47_control.md R183. -/
def Instr.shapeOk : Instr → Bool
  | .unrecognised _ _ _ => false
  | .mov a b _ => a.isRM && b.isRIM
  | .add a b _ | .sub a b _ | .mul a b _ | .div a b _ | .and a b _ | .or a b _ | .xor a b _ => a.isReg && b.isRIM
  | .shl a b _ | .shr a b _ => a.isReg && b.isRI
  | .not a _ _ => a.isReg
  | .st a b _ | .ld a b _ => a.isReg && b.isReg
  | .wdm a b c => a.isRIM && b.isRIM && c.isRIM
  | .jmp a _ _ | .jiz a _ _ | .jin a _ _ => a.isSym
  | .halt _ _ _ => true

end Sys2Proof
end

