-- ==== Sys2Proof/Machine/Ops.lean ====
section
/-! DEFINITION. The named operations every meaning is written over: conversions (00_scope.md R9), the Register File
(10_state.md R24, R25, R29), the data memory (20_memory.md R52, R53), the pixel-store port (46_pixel.md R171), and
`raise`, the machine's trap entry (60_exceptions.md R190). There is no return from an error (60_exceptions.md R192). -/

namespace Sys2Proof.Machine

/-! ### Codes (10_state.md R31, 60_exceptions.md R185) -/

def Cycle.code : Cycle → Nat
  | .startup => 0
  | .fetch => 1
  | .decode => 2
  | .execute => 3
  | .autoStep => 4
  | .halt => 5

/-- The code `ERR` holds; no error is 0. -/
def errCode : Option ErrorKind → Nat
  | none => 0
  | some .fetch => 1
  | some .decode => 2
  | some .execute => 3
  | some .memoryRead => 4
  | some .memoryWrite => 5
  | some .registerRead => 6
  | some .registerWrite => 7
  | some .display => 8

/-! ### Conversions -/

/-- `trunc_N(n)`, a natural number brought to width `N` (00_scope.md R9). -/
def trunc (w : Width) (n : Nat) : Word := BitVec.ofNat 128 (n % 2 ^ w.bits)

/-- A flag as the number 0 or 1 (00_scope.md R8). -/
def flagWord (b : Bool) : Word := if b then 1 else 0

/-! ### Halt and error -/

/-- `raise Kind` (60_exceptions.md R190): `ERR <- Kind`, `CYC <- Halt`, nothing else. -/
def raise (k : ErrorKind) (s : State) : State := { s with err := some k, cyc := .halt }

/-- `CYC <- Halt`. -/
def halt (s : State) : State := { s with cyc := .halt }

/-! ### The Register File -/

/-- The cell of a register (10_state.md R21). -/
def State.cell (s : State) : Reg → Word
  | .pc => s.pc
  | .mar => s.mar
  | .mdr => s.mdr
  | .fz => flagWord s.fz
  | .fn => flagWord s.fn
  | .fc => flagWord s.fc
  | .fo => flagWord s.fo
  | .gpr i => s.gpr[i]

/-- Replace the cell of a register; a flag keeps the low bit (00_scope.md R9). -/
def State.setCell (s : State) (r : Reg) (v : Word) : State :=
  match r with
  | .pc => { s with pc := v }
  | .mar => { s with mar := v }
  | .mdr => { s with mdr := v }
  | .fz => { s with fz := v.getLsbD 0 }
  | .fn => { s with fn := v.getLsbD 0 }
  | .fc => { s with fc := v.getLsbD 0 }
  | .fo => { s with fo := v.getLsbD 0 }
  | .gpr i => { s with gpr := s.gpr.set i v }

/-- `x[r]`: the low `N` bits of the cell, tagged with width `N` (10_state.md R24). -/
def State.readReg (s : State) (r : RegRef) : Value :=
  { width := r.width, bits := trunc r.width (s.cell r.reg).toNat }

/-- The cell with its low `N` bits replaced and the rest kept (10_state.md R25). -/
def mergeLow (w : Width) (old v : Word) : Word :=
  BitVec.ofNat 128 (old.toNat / 2 ^ w.bits * 2 ^ w.bits + v.toNat % 2 ^ w.bits)

/-- `x[r] <- v` (10_state.md R25). -/
def State.writeReg (s : State) (r : RegRef) (v : Word) : State :=
  s.setCell r.reg (mergeLow r.width (s.cell r.reg) v)

/-- `pc <- t` writes `trunc_W(t)` (10_state.md R26). -/
def State.setPc (s : State) (t : Nat) : State := { s with pc := trunc s.cfg.w t }

/-- `lookup(name)`: fails on any name while the Register File is not populated (10_state.md R29, R42). -/
def State.lookup (s : State) (name : List Char) : Option RegRef :=
  if s.cyc = .startup then none else lookupName s.cfg name

/-! ### The data memory -/

/-- What an unlisted address reads as (20_memory.md R54). -/
def Memory.unlisted : Word := 0

/-- The cell at an address. -/
def Memory.read (m : Memory) (a : Nat) : Word :=
  match m with
  | [] => Memory.unlisted
  | (b, v) :: rest => if a = b then v else Memory.read rest a

/-- Replace the cell at an address, keeping the canonical form. -/
def Memory.write (m : Memory) (a : Nat) (v : Word) : Memory :=
  match m with
  | [] => if v = Memory.unlisted then [] else [(a, v)]
  | (b, u) :: rest =>
    if a < b then if v = Memory.unlisted then (b, u) :: rest else (a, v) :: (b, u) :: rest
    else if a = b then if v = Memory.unlisted then rest else (a, v) :: rest
    else (b, u) :: Memory.write rest a v

/-- Every listed address is at or above a bound, addresses rise strictly, and no listed cell is the unlisted value. -/
def Memory.wfFrom (lo : Nat) (m : Memory) : Bool :=
  match m with
  | [] => true
  | (b, v) :: rest => decide (lo ≤ b) && decide (v ≠ Memory.unlisted) && Memory.wfFrom (b + 1) rest

/-- The canonical form. -/
def Memory.wf (m : Memory) : Bool := Memory.wfFrom 0 m

/-- `MemRead(a, 1)`; `none` is `raise MemoryRead` (20_memory.md R52). -/
def State.memRead (s : State) (a : Nat) : Option Word :=
  if s.cfg.memcap ≤ a then none else some (s.mem.read a)

/-- `MemWrite(a, 1, v)`; `none` is `raise MemoryWrite`, and nothing changes (20_memory.md R53). -/
def State.memWrite (s : State) (a : Nat) (v : Word) : Option State :=
  if s.cfg.memcap ≤ a then none else some { s with mem := s.mem.write a v }

/-! ### The pixel-store port -/

/-- `SetPixel(x, y, [r, g, b, a])`; `none` is `raise Display`, and nothing is stored (46_pixel.md R171). -/
def State.setPixel (s : State) (p : SetPixel) : Option State :=
  if s.cfg.dw ≤ p.x.toNat ∨ s.cfg.dh ≤ p.y.toNat then none else some { s with pixels := s.pixels ++ [p] }

/-! ### The label table -/

/-- `LTAB(name)` of the loaded program (30_encoding.md R74, 10_state.md R35). -/
def State.label (s : State) (name : List Char) : Option Nat := labelTable s.cfg.cmt s.prog name

end Sys2Proof.Machine
end

