-- ==== Sys2Proof/Machine/Operands.lean ====
section
/-! DEFINITION. Operands: how Decode resolves a classified operand to a slot (40_pipeline.md R106, R107), and what
Execute takes from a slot (30_encoding.md R85, 42_arithmetic.md R135). -/

namespace Sys2Proof.Machine

/-- `resolve(c)` (40_pipeline.md R106): the slot, or the kind of error it raises. -/
def resolve (s : State) : Operand → Except ErrorKind Slot
  | .none => .ok .none
  | .register name =>
    match s.lookup name with
    | none => .error .registerRead
    | some r => .ok (.register r (s.readReg r))
  | .memAddr a =>
    match s.memRead a with
    | none => .error .memoryRead
    | some v => .ok (.memAddr a { width := s.cfg.w, bits := v })
  | .immediate v => .ok (.immediate { width := s.cfg.w, bits := trunc s.cfg.w v })
  | .symbol name => .ok (.symbol name)
  | .malformed => .ok .malformed

/-- All three slots, in the order 1, 2, 3; the first failure is the one reported (40_pipeline.md R107). -/
def resolveAll (s : State) (i : SourceInstr) : Except ErrorKind Instr :=
  match resolve s i.a1 with
  | .error k => .error k
  | .ok s1 =>
    match resolve s i.a2 with
    | .error k => .error k
    | .ok s2 =>
      match resolve s i.a3 with
      | .error k => .error k
      | .ok s3 => .ok (i.opc.instr s1 s2 s3)

/-- `nat(IR.Sk.val)` of a slot whose tag is Register, Immediate or MemAddr. -/
def sourceRIM : Slot → Option Nat
  | .register _ v => some v.nat
  | .immediate v => some v.nat
  | .memAddr _ v => some v.nat
  | .none | .symbol _ | .malformed => none

/-- `nat(IR.Sk.val)` of a slot whose tag is Register or Immediate: a shift amount (44_shift.md R160). -/
def sourceRI : Slot → Option Nat
  | .register _ v => some v.nat
  | .immediate v => some v.nat
  | .none | .memAddr _ _ | .symbol _ | .malformed => none

/-- The destination of an ALU instruction: the optional slot's register if its tag is Register, else the default
(42_arithmetic.md R135). -/
def destination (optional : Slot) (dflt : RegRef) : RegRef :=
  match optional with
  | .register r _ => r
  | .none | .immediate _ | .memAddr _ _ | .symbol _ | .malformed => dflt

end Sys2Proof.Machine
end

