-- ==== Sys2Proof/Machine/Flags.lean ====
section
/-! DEFINITION. The ten operations of the ALU at a width `N` on numbers below `2^N`, with their carry and overflow
(42_arithmetic.md R137, R140 to R143; 43_bitwise.md R151 to R154; 44_shift.md R160 to R162), the flag update (R137), and
the template of the two-source instructions (R139). -/

namespace Sys2Proof.Machine

/-- What an operation reports: the result, the carry and the signed overflow (10_state.md R43). -/
structure AluResult where
  r : Nat
  c : Bool
  v : Bool
  deriving DecidableEq, Repr, Inhabited

/-- Bit `N-1`. -/
def msb (w : Width) (n : Nat) : Bool := n.testBit (w.bits - 1)

/-- An operation that leaves carry and overflow 0 (42_arithmetic.md R137). -/
def plain (r : Nat) : AluResult := { r := r, c := false, v := false }

/-- 42_arithmetic.md R140 -/
def addOp (w : Width) (a b : Nat) : AluResult :=
  { r := (a + b) % 2 ^ w.bits
    c := decide (2 ^ w.bits ≤ a + b)
    v := (msb w a == msb w b) && (msb w ((a + b) % 2 ^ w.bits) != msb w a) }

/-- 42_arithmetic.md R141 -/
def subOp (w : Width) (a b : Nat) : AluResult :=
  { r := (a + 2 ^ w.bits - b) % 2 ^ w.bits
    c := decide (a < b)
    v := (msb w a != msb w b) && (msb w ((a + 2 ^ w.bits - b) % 2 ^ w.bits) != msb w a) }

/-- 42_arithmetic.md R142 -/
def mulOp (w : Width) (a b : Nat) : AluResult := plain (a * b % 2 ^ w.bits)

/-- 42_arithmetic.md R143; `none` is the division by zero. -/
def divOp (_w : Width) (a b : Nat) : Option AluResult := if b = 0 then none else some (plain (a / b))

/-- 43_bitwise.md R151 -/
def andOp (_w : Width) (a b : Nat) : AluResult := plain (a &&& b)

/-- 43_bitwise.md R152 -/
def orOp (_w : Width) (a b : Nat) : AluResult := plain (a ||| b)

/-- 43_bitwise.md R153 -/
def xorOp (_w : Width) (a b : Nat) : AluResult := plain (a ^^^ b)

/-- 43_bitwise.md R154 -/
def notOp (w : Width) (a : Nat) : AluResult := plain (2 ^ w.bits - 1 - a)

/-- 44_shift.md R161, the count masked to the width (R160). -/
def shlOp (w : Width) (a b : Nat) : AluResult := plain (a * 2 ^ (b % w.bits) % 2 ^ w.bits)

/-- 44_shift.md R162, the count masked to the width (R160). -/
def shrOp (w : Width) (a b : Nat) : AluResult := plain (a / 2 ^ (b % w.bits))

/-- The flag update (42_arithmetic.md R137), in the order `fz fn fc fo` (40_pipeline.md R111). -/
def State.setFlags (s : State) (w : Width) (res : AluResult) : State :=
  { s with fz := decide (res.r = 0), fn := msb w res.r, fc := res.c, fo := res.v }

/-- The destination first, then the four flags (40_pipeline.md R111), so a flag destination ends with the flag's value
(42_arithmetic.md R138). -/
def State.aluWrite (s : State) (d : RegRef) (res : AluResult) : State :=
  (s.writeReg d (trunc d.width res.r)).setFlags d.width res

/-- `ALU2(op, allowed2)` (42_arithmetic.md R139): tags first, then the operation at the destination's width on both
operands brought to that width (R136). `second` gives the second operand's number if its tag is allowed. -/
def alu2 (op : Width → Nat → Nat → Option AluResult) (second : Slot → Option Nat) (s1 s2 s3 : Slot) (s : State) :
    Host.Outcome State Fault Refusal :=
  match s1, second s2 with
  | .register r1 v1, some n2 =>
    match op (destination s3 r1).width (v1.nat % 2 ^ (destination s3 r1).width.bits)
        (n2 % 2 ^ (destination s3 r1).width.bits) with
    | some res => .next (s.aluWrite (destination s3 r1) res)
    | none => .next (raise .execute s)
  | _, _ => .next (raise .execute s)

end Sys2Proof.Machine
end

