-- ==== Sys2Proof/Machine/Arithmetic.lean ====
section
/-! DEFINITION. The arithmetic instructions: ADD, SUB, MUL, DIV (42_arithmetic.md). -/

namespace Sys2Proof.Machine

/-- ADD (42_arithmetic.md R140). -/
def execAdd (s1 s2 s3 : Slot) (s : State) : Host.Outcome State Fault Refusal :=
  alu2 (fun w a b => some (addOp w a b)) sourceRIM s1 s2 s3 s

/-- SUB (42_arithmetic.md R141). -/
def execSub (s1 s2 s3 : Slot) (s : State) : Host.Outcome State Fault Refusal :=
  alu2 (fun w a b => some (subOp w a b)) sourceRIM s1 s2 s3 s

/-- MUL (42_arithmetic.md R142). -/
def execMul (s1 s2 s3 : Slot) (s : State) : Host.Outcome State Fault Refusal :=
  alu2 (fun w a b => some (mulOp w a b)) sourceRIM s1 s2 s3 s

/-- DIV (42_arithmetic.md R143). -/
def execDiv (s1 s2 s3 : Slot) (s : State) : Host.Outcome State Fault Refusal :=
  alu2 divOp sourceRIM s1 s2 s3 s

end Sys2Proof.Machine
end

