-- ==== Sys2Proof/Machine/Bitwise.lean ====
section
/-! DEFINITION. The bitwise instructions: AND, OR, XOR, NOT (43_bitwise.md). -/

namespace Sys2Proof.Machine

/-- AND (43_bitwise.md R151). -/
def execAnd (s1 s2 s3 : Slot) (s : State) : Host.Outcome State Fault Refusal :=
  alu2 (fun w a b => some (andOp w a b)) sourceRIM s1 s2 s3 s

/-- OR (43_bitwise.md R152). -/
def execOr (s1 s2 s3 : Slot) (s : State) : Host.Outcome State Fault Refusal :=
  alu2 (fun w a b => some (orOp w a b)) sourceRIM s1 s2 s3 s

/-- XOR (43_bitwise.md R153). -/
def execXor (s1 s2 s3 : Slot) (s : State) : Host.Outcome State Fault Refusal :=
  alu2 (fun w a b => some (xorOp w a b)) sourceRIM s1 s2 s3 s

/-- NOT (43_bitwise.md R154): one source; the optional destination is slot 2. -/
def execNot (s1 s2 : Slot) (s : State) : Host.Outcome State Fault Refusal :=
  match s1 with
  | .register r1 v1 =>
    .next (s.aluWrite (destination s2 r1)
      (notOp (destination s2 r1).width (v1.nat % 2 ^ (destination s2 r1).width.bits)))
  | .none | .immediate _ | .memAddr _ _ | .symbol _ | .malformed => .next (raise .execute s)

end Sys2Proof.Machine
end

