-- ==== Sys2Proof/Machine/Control.lean ====
section
/-! DEFINITION. Control transfer and halt: JMP, JIZ, JIN, HALT and the sentinel NONE (47_control.md). -/

namespace Sys2Proof.Machine

/-- A jump taken to a label: `pc` takes the label's 1-based line number, or an Execute error when no line declares it
(47_control.md R176). -/
def jumpTo (name : List Char) (s : State) : State :=
  match s.label name with
  | some t => s.setPc t
  | none => raise .execute s

/-- JMP (47_control.md R176). -/
def execJmp (s1 : Slot) (s : State) : Host.Outcome State Fault Refusal :=
  match s1 with
  | .symbol name => .next (jumpTo name s)
  | .none | .register _ _ | .immediate _ | .memAddr _ _ | .malformed => .next (raise .execute s)

/-- JIZ (47_control.md R177): the tag is checked always, the label is looked up only when the jump is taken. -/
def execJiz (s1 : Slot) (s : State) : Host.Outcome State Fault Refusal :=
  match s1 with
  | .symbol name => .next (if s.fz then jumpTo name s else s)
  | .none | .register _ _ | .immediate _ | .memAddr _ _ | .malformed => .next (raise .execute s)

/-- JIN (47_control.md R178). -/
def execJin (s1 : Slot) (s : State) : Host.Outcome State Fault Refusal :=
  match s1 with
  | .symbol name => .next (if s.fn then jumpTo name s else s)
  | .none | .register _ _ | .immediate _ | .memAddr _ _ | .malformed => .next (raise .execute s)

/-- HALT (47_control.md R180): `CYC <- Halt`, nothing else. -/
def execHalt (s : State) : Host.Outcome State Fault Refusal := .next (halt s)

/-- NONE, an unrecognised opcode (47_control.md R183): an Execute error, never a no-operation. -/
def execUnrecognised (s : State) : Host.Outcome State Fault Refusal := .next (raise .execute s)

end Sys2Proof.Machine
end

