-- ==== Sys2Proof/Machine/LoadStore.lean ====
section
/-! DEFINITION. The load and store instructions: LD, ST (45_load_store.md). Both operands are registers; the address is
the register's value, untruncated (20_memory.md R56). -/

namespace Sys2Proof.Machine

/-- ST (45_load_store.md R167): address in slot 1, value in slot 2, stored at the width of a cell. -/
def execSt (s1 s2 : Slot) (s : State) : Host.Outcome State Fault Refusal :=
  match s1, s2 with
  | .register _ va, .register _ vv =>
    match s.memWrite va.nat (trunc s.cfg.w vv.nat) with
    | some t => .next t
    | none => .next (raise .memoryWrite s)
  | _, _ => .next (raise .execute s)

/-- LD (45_load_store.md R166): destination in slot 1, address in slot 2. -/
def execLd (s1 s2 : Slot) (s : State) : Host.Outcome State Fault Refusal :=
  match s1, s2 with
  | .register r _, .register _ va =>
    match s.memRead va.nat with
    | some v => .next (s.writeReg r (trunc r.width v.toNat))
    | none => .next (raise .memoryRead s)
  | _, _ => .next (raise .execute s)

end Sys2Proof.Machine
end

