-- ==== Sys2Proof/Machine/Move.lean ====
section
/-! DEFINITION. The move family: MOV (41_move.md). -/

namespace Sys2Proof.Machine

/-- MOV (41_move.md R131): the destination's tag, then the source's, then the copy, truncated to the destination. -/
def execMov (s1 s2 : Slot) (s : State) : Host.Outcome State Fault Refusal :=
  match s1 with
  | .register r _ =>
    match sourceRIM s2 with
    | some n => .next (s.writeReg r (trunc r.width n))
    | none => .next (raise .execute s)
  | .memAddr a _ =>
    match sourceRIM s2 with
    | some n =>
      match s.memWrite a (trunc s.cfg.w n) with
      | some t => .next t
      | none => .next (raise .memoryWrite s)
    | none => .next (raise .execute s)
  | .none | .immediate _ | .symbol _ | .malformed => .next (raise .execute s)

end Sys2Proof.Machine
end

