-- ==== Sys2Proof/Machine/Pixel.lean ====
section
/-! DEFINITION. The pixel-write instruction: WDM (46_pixel.md). -/

namespace Sys2Proof.Machine

/-- Bits 15:8 of a number, as a byte. -/
def highByte (n : Nat) : BitVec 8 := BitVec.ofNat 8 (n / 256)

/-- Bits 7:0 of a number, as a byte. -/
def lowByte (n : Nat) : BitVec 8 := BitVec.ofNat 8 n

/-- The transaction three operand words ask for (46_pixel.md R170): the first-named of each pair is the high byte. -/
def pixelOf (rg ba xy : Nat) : SetPixel :=
  { x := highByte xy, y := lowByte xy, r := highByte rg, g := lowByte rg, b := highByte ba, a := lowByte ba }

/-- WDM (46_pixel.md R170). -/
def execWdm (s1 s2 s3 : Slot) (s : State) : Host.Outcome State Fault Refusal :=
  match sourceRIM s1, sourceRIM s2, sourceRIM s3 with
  | some rg, some ba, some xy =>
    match s.setPixel (pixelOf rg ba xy) with
    | some t => .next t
    | none => .next (raise .display s)
  | _, _, _ => .next (raise .execute s)

end Sys2Proof.Machine
end

