-- ==== Sys2Proof/Machine/Shift.lean ====
section
/-! DEFINITION. The shift instructions: SHL, SHR (44_shift.md). -/

namespace Sys2Proof.Machine

/-- SHL (44_shift.md R161); a memory operand is not allowed as the amount (R160). -/
def execShl (s1 s2 s3 : Slot) (s : State) : Host.Outcome State Fault Refusal :=
  alu2 (fun w a b => some (shlOp w a b)) sourceRI s1 s2 s3 s

/-- SHR (44_shift.md R162); a memory operand is not allowed as the amount (R160). -/
def execShr (s1 s2 s3 : Slot) (s : State) : Host.Outcome State Fault Refusal :=
  alu2 (fun w a b => some (shrOp w a b)) sourceRI s1 s2 s3 s

end Sys2Proof.Machine
end

