-- ==== Sys2Proof/Machine/Dispatch.lean ====
section
/-! DEFINITION. Execute's dispatch on the opcode (40_pipeline.md R109). -/

namespace Sys2Proof.Machine

def exec (i : Instr) (s : State) : Host.Outcome State Fault Refusal :=
  match i with
  | .unrecognised _ _ _ => Sys2Proof.Machine.execUnrecognised s
  | .mov s1 s2 _ => Sys2Proof.Machine.execMov s1 s2 s
  | .add s1 s2 s3 => Sys2Proof.Machine.execAdd s1 s2 s3 s
  | .sub s1 s2 s3 => Sys2Proof.Machine.execSub s1 s2 s3 s
  | .mul s1 s2 s3 => Sys2Proof.Machine.execMul s1 s2 s3 s
  | .div s1 s2 s3 => Sys2Proof.Machine.execDiv s1 s2 s3 s
  | .and s1 s2 s3 => Sys2Proof.Machine.execAnd s1 s2 s3 s
  | .or s1 s2 s3 => Sys2Proof.Machine.execOr s1 s2 s3 s
  | .xor s1 s2 s3 => Sys2Proof.Machine.execXor s1 s2 s3 s
  | .not s1 s2 _ => Sys2Proof.Machine.execNot s1 s2 s
  | .shl s1 s2 s3 => Sys2Proof.Machine.execShl s1 s2 s3 s
  | .shr s1 s2 s3 => Sys2Proof.Machine.execShr s1 s2 s3 s
  | .st s1 s2 _ => Sys2Proof.Machine.execSt s1 s2 s
  | .ld s1 s2 _ => Sys2Proof.Machine.execLd s1 s2 s
  | .wdm s1 s2 s3 => Sys2Proof.Machine.execWdm s1 s2 s3 s
  | .jmp s1 _ _ => Sys2Proof.Machine.execJmp s1 s
  | .jiz s1 _ _ => Sys2Proof.Machine.execJiz s1 s
  | .jin s1 _ _ => Sys2Proof.Machine.execJin s1 s
  | .halt _ _ _ => Sys2Proof.Machine.execHalt s

end Sys2Proof.Machine
end

