-- ==== Sys2Proof/Machine/Sequencer.lean ====
section
/-! DEFINITION. The sequencer: the setup step (70_reset_and_hazards.md R216), the three stages (40_pipeline.md R104,
R105, R109), the AutoStep batch (R113), the tick (R102), and the host's events (R102, 70_reset_and_hazards.md R215 to
R218). -/

namespace Sys2Proof.Machine

/-! ### Launch premises -/

/-- What keeps a launch from having a meaning (70_reset_and_hazards.md R218 a, b, c); log 11. -/
def launchRefusal (c : Config) (prog : List Line) : Option Refusal :=
  if !c.legal then some .illegalConfiguration
  else if !(prog.all fun l => l.all isAscii) then some .programNotAscii
  else if 2 ^ c.w.bits - 1 < prog.length then some .programTooLong
  else none

/-! ### The stages -/

/-- The setup step (70_reset_and_hazards.md R216): every register is created holding zero. -/
def setupStep (s : State) : State :=
  { s with
    gpr := Vector.replicate 26 0
    pc := 0
    mar := 0
    mdr := 0
    fz := false
    fn := false
    fc := false
    fo := false
    cyc := .fetch }

/-- The index of the first Capturable line of a list that starts at index `i`, or the index after its end. -/
def scanLines (cmt : List Char) : List Line → Nat → Nat
  | [], i => i
  | l :: ls, i => if lineClass cmt l = .capturable then i else scanLines cmt ls (i + 1)

/-- The Fetch stage (40_pipeline.md R104). -/
def fetchStage (s : State) : State :=
  let i := scanLines s.cfg.cmt (s.prog.drop s.pc.toNat) s.pc.toNat
  match s.prog[i]? with
  | none => halt (if i = s.pc.toNat then s else s.setPc i)
  | some l => { s.setPc (i + 1) with cap := l, cyc := .decode }

/-- A Decode error: `raise`, and `IR` holds a free value (40_pipeline.md R105, log 2). -/
def decodeError (k : ErrorKind) (s : State) : State :=
  { raise k s with ir := Config.freeLatch s.draws, draws := s.draws + 1 }

/-- The Decode stage (40_pipeline.md R105). -/
def decodeStage (s : State) : State :=
  match parseLine s.cfg.cmt s.cap with
  | none => decodeError .decode s
  | some i =>
    match resolveAll s i with
    | .error k => decodeError k s
    | .ok ir => { s with ir := ir, cyc := .execute }

/-- `CYC <- Fetch` if no error was raised and the opcode was not HALT (40_pipeline.md R109). -/
def afterExecute (s : State) : State := if s.cyc = .halt then s else { s with cyc := .fetch }

/-- The Execute stage (40_pipeline.md R109). -/
def executeStage (s : State) : Host.Outcome State Fault Refusal :=
  match exec s.ir s with
  | .next t => .next (afterExecute t)
  | .fault f => .fault f
  | .refused r => .refused r

/-! ### AutoStep -/

/-- One whole cycle, Fetch, Decode, Execute, stopping where a stage reached Halt (40_pipeline.md R113). -/
def runCycle (s : State) : Host.Outcome State Fault Refusal :=
  if (fetchStage s).cyc = .halt then .next (fetchStage s)
  else if (decodeStage (fetchStage s)).cyc = .halt then .next (decodeStage (fetchStage s))
  else executeStage (decodeStage (fetchStage s))

/-- Up to `n` cycles, then `CYC <- AutoStep` unless Halt was reached (40_pipeline.md R113). -/
def runBatch : Nat → State → Host.Outcome State Fault Refusal
  | 0, s => .next { s with cyc := .autoStep }
  | n + 1, s =>
    match runCycle s with
    | .next t => if t.cyc = .halt then .next t else runBatch n t
    | .fault f => .fault f
    | .refused r => .refused r

/-! ### The tick and the host's events -/

/-- One tick (40_pipeline.md R102). -/
def tick (s : State) : Host.Outcome State Fault Refusal :=
  match s.cyc with
  | .startup => .next (setupStep s)
  | .fetch => .next (fetchStage s)
  | .decode => .next (decodeStage s)
  | .execute => executeStage s
  | .autoStep => runBatch s.cfg.k s
  | .halt => .next s

/-- A tick of a machine whose launch has a meaning (70_reset_and_hazards.md R218). -/
def launchedTick (s : State) : Host.Outcome State Fault Refusal :=
  match launchRefusal s.cfg s.prog with
  | some r => .refused r
  | none => tick s

/-- `LOAD` of a program already cut into lines (70_reset_and_hazards.md R217). -/
def loadLines (prog : List Line) (s : State) : State :=
  { s with
    prog := prog
    pc := if s.cyc = .startup then s.pc else 0
    cap := []
    ir := .unrecognised .none .none .none
    err := none
    cyc := if s.cyc = .startup then .startup else .fetch }

/-- The characters of a text given as bytes (30_encoding.md R71); 0x80 and above are kept, for the refusal to see. -/
def textOf (bytes : List (BitVec 8)) : List Char := bytes.map fun b => Char.ofNat b.toNat

/-- `AUTO_ON`, accepted only in Fetch (40_pipeline.md R102). -/
def autoOn (s : State) : State := if s.cyc = .fetch then { s with cyc := .autoStep } else s

/-- `AUTO_OFF`, accepted only in AutoStep (40_pipeline.md R102). -/
def autoOff (s : State) : State := if s.cyc = .autoStep then { s with cyc := .fetch } else s

/-- What the host can do to the core (40_pipeline.md R102). -/
inductive HostEvent where
  | tick
  | autoOn
  | autoOff
  | load (text : List (BitVec 8))
  | reset (c : Config)
  deriving DecidableEq, Repr

/-- The core under an event of the host. RESET keeps only the model's own counter (log 12). -/
def hostEvent (e : HostEvent) (s : State) : Host.Outcome State Fault Refusal :=
  match e with
  | .tick => launchedTick s
  | .autoOn => .next (autoOn s)
  | .autoOff => .next (autoOff s)
  | .load text =>
    match launchRefusal s.cfg (cutLines (textOf text)) with
    | some r => .refused r
    | none => .next (loadLines (cutLines (textOf text)) s)
  | .reset c =>
    match launchRefusal c [] with
    | some r => .refused r
    | none => .next { State.resetWith c with draws := s.draws }

end Sys2Proof.Machine
end

