-- ==== Sys2Proof/Machine/Step.lean ====
section
/-! DEFINITION. The step: one tick of the core (40_pipeline.md R100). And the placing of one instruction where the next
tick fetches it (log 4). -/

namespace Sys2Proof.Machine

/-- One step is one tick (40_pipeline.md R100). -/
def step (s : State) : Host.Outcome State Fault Refusal := launchedTick s

/-- The machine set up if it still was in Startup (70_reset_and_hazards.md R216), with the one-line program a table word
stands for loaded (R217) and AutoStep on (40_pipeline.md R102), so that the next tick fetches, decodes and executes
exactly that line. A word that names no row loads the empty program. -/
def State.withFetchWord (s : State) (_nbits w : Nat) : State :=
  autoOn (loadLines (tableLine w).toList (if s.cyc = .startup then setupStep s else s))

end Sys2Proof.Machine
end

