-- ==== Sys2Proof/Safety.lean ====
section
/-! DEFINITION. What claims call a safe machine: how a run ends (60_exceptions.md R194, 70_reset_and_hazards.md R221), and
the invariant that every event of the host keeps. -/

namespace Sys2Proof.Machine

/-- The run is over (70_reset_and_hazards.md R221). -/
def State.halted (s : State) : Bool := decide (s.cyc = .halt)

/-- The run ended cleanly: by HALT or by the end of the text (70_reset_and_hazards.md R221). -/
def State.endedCleanly (s : State) : Bool := s.halted && s.err.isNone

/-- The run is a faulted run (60_exceptions.md R194). -/
def State.faulted (s : State) : Bool := s.halted && s.err.isSome

/-- A word of width `W` (10_state.md R22, R26, R27; 20_memory.md R51). -/
def Config.fitsWord (c : Config) (v : Word) : Prop := v.toNat < 2 ^ c.w.bits

/-- The invariant of the machine: every cell holds a value of its width, the memory is canonical and inside `MEMCAP`, the
latches hold what their stage needs, an error means Halt, and only pixels inside the display were sent. -/
structure State.Inv (s : State) : Prop where
  /-- the launch has a meaning (70_reset_and_hazards.md R218) -/
  launch : launchRefusal s.cfg s.prog = none
  /-- a line holds no line feed (30_encoding.md R71) -/
  lines : ∀ l ∈ s.prog, ∀ c ∈ l, c.toNat ≠ 10
  /-- general-purpose registers are `W` bits wide (10_state.md R22) -/
  gprFits : ∀ i : Fin 26, Config.fitsWord s.cfg s.gpr[i]
  /-- registers at or past `NGPR` do not exist (10_state.md R22) -/
  gprAbsent : ∀ i : Fin 26, s.cfg.ngpr ≤ i.val → s.gpr[i] = 0
  /-- `pc` is `W` bits wide (10_state.md R26) -/
  pcFits : Config.fitsWord s.cfg s.pc
  /-- `mar` is `W` bits wide (10_state.md R27) -/
  marFits : Config.fitsWord s.cfg s.mar
  /-- `mdr` is `W` bits wide (10_state.md R27) -/
  mdrFits : Config.fitsWord s.cfg s.mdr
  /-- the memory's canonical form -/
  memWf : Memory.wf s.mem = true
  /-- cells are `W` bits wide and inside `MEMCAP` (20_memory.md R51) -/
  memFits : ∀ p ∈ s.mem, p.1 < s.cfg.memcap ∧ Config.fitsWord s.cfg p.2
  /-- Fetch hands Decode a Capturable line (10_state.md R33) -/
  capLine : s.cyc = .decode → lineClass s.cfg.cmt s.cap = .capturable
  /-- Decode hands Execute a well-formed instruction (10_state.md R34) -/
  irFits : s.cyc = .execute → s.ir.wellFormed s.cfg = true
  /-- an error means Halt (60_exceptions.md R190) -/
  errHalts : s.err ≠ none → s.cyc = .halt
  /-- no accepted pixel is outside the display (46_pixel.md R171) -/
  pixelsIn : ∀ p ∈ s.pixels, p.x.toNat < s.cfg.dw ∧ p.y.toNat < s.cfg.dh

/-! ### Frames -/

/-- The four flags as registers. -/
def flagRegs : List Reg := [.fz, .fn, .fc, .fo]

/-- Every register but the listed ones reads as before. -/
def sameRegsBut (rs : List Reg) (s t : State) : Prop := ∀ r, r ∉ rs → t.cell r = s.cell r

/-- Every memory cell but the one at the listed addresses reads as before. -/
def sameMemoryBut (as : List Nat) (s t : State) : Prop :=
  ∀ a, a ∉ as → Memory.read t.mem a = Memory.read s.mem a

/-- What no instruction writes: the configuration, `PROG`, `CAP`, `IR` and the model's counter (10_state.md R40). -/
def sameControl (s t : State) : Prop :=
  t.cfg = s.cfg ∧ t.prog = s.prog ∧ t.cap = s.cap ∧ t.ir = s.ir ∧ t.draws = s.draws

/-- Nothing changed but the listed registers and the memory cells at the listed addresses. -/
def Frame (rs : List Reg) (as : List Nat) (s t : State) : Prop :=
  sameRegsBut rs s t ∧ sameMemoryBut as s t ∧ t.pixels = s.pixels ∧ t.err = s.err ∧ t.cyc = s.cyc ∧ sameControl s t

/-! ### Current operand values -/

/-- The slot holds the value its operand has in `s` (40_pipeline.md R106). -/
def Slot.current (s : State) : Slot → Prop
  | .register r v => v = s.readReg r
  | .memAddr a v => v = { width := s.cfg.w, bits := Memory.read s.mem a }
  | .none | .immediate _ | .symbol _ | .malformed => True

/-- Every slot holds the value its operand has in `s`. -/
def Instr.current (s : State) (i : Instr) : Prop :=
  Slot.current s i.slots.1 ∧ Slot.current s i.slots.2.1 ∧ Slot.current s i.slots.2.2

end Sys2Proof.Machine
end

