-- ==== Sys2Proof/Certificates/Slice0/Obligations.lean ====
section
/-! DEFINITION. The statements for the provers. Each docstring names the rules of spec/ it formalises. Arithmetic is stated
in Lean's own fixed-width arithmetic (`BitVec`), not in the operations of Machine/Flags.lean. -/

open Sys2Proof Sys2Proof.Machine

/-! ### Encoding and the text -/

/-- Lines written out from the listings of 95_test_vectors.md (P1, P2, P3, P4, S5) and from 30_encoding.md R76 to R82
decode to the instructions they stand for. -/
def Obligations.WrittenLinesDecode : Prop :=
  parseLine [';'] "MOV 0x10 gb".toList = some ⟨.mov, .memAddr 16, .register ['g', 'b'], .none⟩ ∧
  parseLine [';'] "MUL gb gb gc   ; gc = i*i".toList =
    some ⟨.mul, .register ['g', 'b'], .register ['g', 'b'], .register ['g', 'c']⟩ ∧
  parseLine [';'] "WDM 4660 22136 772".toList = some ⟨.wdm, .immediate 4660, .immediate 22136, .immediate 772⟩ ∧
  parseLine [';'] "  jIz\t.done ".toList = some ⟨.jiz, .symbol ['d', 'o', 'n', 'e'], .none, .none⟩ ∧
  parseLine [';'] "SHR ga, 8".toList = some ⟨.shr, .malformed, .immediate 8, .none⟩ ∧
  parseLine [';'] "NOP".toList = some ⟨.unrecognised, .none, .none, .none⟩

/-- Decoding the line that writes a well-formed instruction gives that instruction's opcode and operands, for every legal
configuration, and the line is one Fetch captures (30_encoding.md R72, R76 to R82; 10_state.md R29). -/
def Obligations.EncodedLineDecodesBack : Prop :=
  ∀ (c : Config) (i : Instr), c.legal = true → i.wellFormed c = true →
    lineClass c.cmt (encode c i) = .capturable ∧ parseLine c.cmt (encode c i) = some (i.source c)

/-- The Decode stage on the line that writes a well-formed instruction, in a state where its operands have the values the
instruction carries, latches exactly that instruction (40_pipeline.md R105, R106). -/
def Obligations.DecodeStageLatchesEncodedInstruction : Prop :=
  ∀ (s : State) (i : Instr), s.cfg.legal = true → s.cyc = .decode → i.wellFormed s.cfg = true → Instr.current s i →
    s.cap = encode s.cfg i → decodeStage s = { s with ir := i, cyc := .execute }

/-- The opcode keyword is matched without regard to case, and a keyword that is none of the 18 gives the sentinel
(30_encoding.md R78, R80). -/
def Obligations.KeywordsMatchInAnyCase : Prop :=
  (∀ kw : List Char, opcodeOf (kw.map toLower) = opcodeOf kw ∧ opcodeOf (kw.map toUpper) = opcodeOf kw) ∧
  (∀ o ∈ namedOpcodes, opcodeOf o.keyword = o) ∧
  (∀ kw : List Char, (∀ o ∈ namedOpcodes, kw.map toUpper ≠ o.keyword) → opcodeOf kw = .unrecognised)

/-- The classifier's rule order on the tokens of each form, for every legal comment marker (30_encoding.md R81, R82): a
`0x` token is a memory operand, a decimal token an immediate, a token of letters a register name in lower case, a `.`
token of letters a symbol; a numeral of `2^128` or more is malformed. -/
def Obligations.ClassifierSeparatesTokenForms : Prop :=
  ∀ (cmt ds : List Char), legalMarker cmt = true → ds ≠ [] →
    (ds.all isHexDigit = true → classify cmt ('0' :: 'x' :: ds) =
      if numeral 16 hexDigitValue ds < 2 ^ 128 then .memAddr (numeral 16 hexDigitValue ds) else .malformed) ∧
    (ds.all isDigit = true → classify cmt ds =
      if numeral 10 digitValue ds < 2 ^ 128 then .immediate (numeral 10 digitValue ds) else .malformed) ∧
    (ds.all isLetter = true → classify cmt ds = .register (ds.map toLower)) ∧
    (ds.all isLetter = true → classify cmt ('.' :: ds) = .symbol ds)

/-- Names in any case: a name selects what its lower-case spelling selects; and a name is found exactly when its lower-case
spelling is the name of a register of the machine through a view it has, or that of a general-purpose register followed by
the section letter of `W` itself, which selects the whole register (`gaw` at `W = 16`). Every other name is not found
(10_state.md R22, R23, R29; the names and views are decisions D4 and D5, log 15). -/
def Obligations.RegisterNamesAreExactlyTheRegisters : Prop :=
  ∀ c : Config, c.legal = true →
    (∀ n : List Char, lookupName c (n.map toLower) = lookupName c n) ∧
    (∀ (n : List Char) (r : RegRef), lookupName c n = some r ↔
      r.ok c = true ∧ (n.map toLower = regName c r ∨
        ∃ i : Fin 26, r = ⟨.gpr i, c.w⟩ ∧ n.map toLower = regName c r ++ sectionLetter c.w)) ∧
    (∀ r : RegRef, r.ok c = true → lookupName c (regName c r) = some r ∧
      lookupName c ((regName c r).map toUpper) = some r)

/-- The label table: `LTAB(name) = n` exactly when line `n - 1` declares the name and no later line does; absent exactly
when no line declares it (30_encoding.md R74; that the last declaration wins is R75, decision D11). -/
def Obligations.LabelTableGivesLastDeclaringLine : Prop :=
  ∀ (cmt name : List Char) (prog : List Line),
    (∀ n, labelTable cmt prog name = some n ↔
      ∃ i l, n = i + 1 ∧ prog[i]? = some l ∧ lineClass cmt l = .label name ∧
        ∀ j l', i < j → prog[j]? = some l' → lineClass cmt l' ≠ .label name) ∧
    (labelTable cmt prog name = none ↔ ∀ l ∈ prog, lineClass cmt l ≠ .label name)

/-! ### Registers and memory -/

/-- `x[r]` yields the low `N` bits of the cell, tagged with width `N` (10_state.md R24, decision D5). -/
def Obligations.RegisterReadGivesLowBits : Prop :=
  ∀ (s : State) (r : RegRef), (s.readReg r).width = r.width ∧
    ∀ k, (s.readReg r).bits.getLsbD k = (decide (k < r.width.bits) && (s.cell r.reg).getLsbD k)

/-- `x[r] <- v` replaces bits `N-1:0` of the cell, leaves the bits above as they were, and leaves every other register as
it was (10_state.md R25, decision D5). -/
def Obligations.RegisterWriteReplacesLowBits : Prop :=
  ∀ (s : State) (r : RegRef) (v : Word), r.ok s.cfg = true →
    (∀ k, ((s.writeReg r v).cell r.reg).getLsbD k =
      if k < r.width.bits then v.getLsbD k else (s.cell r.reg).getLsbD k) ∧
    Frame [r.reg] [] s (s.writeReg r v)

/-- MemRead: the cell at an address below `MEMCAP`, a `W`-bit value where the invariant holds; MemoryRead otherwise (`none`,
which LD and resolution raise); nothing changes, since the operation yields no state (20_memory.md R52). -/
def Obligations.MemReadChecksTheBound : Prop :=
  ∀ (s : State) (a : Nat), (a < s.cfg.memcap → s.memRead a = some (Memory.read s.mem a)) ∧
    (s.cfg.memcap ≤ a → s.memRead a = none) ∧
    (State.Inv s → ∀ v, s.memRead a = some v → Config.fitsWord s.cfg v)

/-- MemWrite: replaces the one cell at an address below `MEMCAP`, and a read of it yields the value written; MemoryWrite
otherwise, changing nothing (20_memory.md R53, R55). Over memories in canonical form, which every step keeps. -/
def Obligations.MemWriteReplacesOneCell : Prop :=
  ∀ (s : State) (a : Nat) (v : Word), Memory.wf s.mem = true →
    (a < s.cfg.memcap → ∃ t, s.memWrite a v = some t ∧ t.memRead a = some v ∧ Frame [] [a] s t ∧
      Memory.wf t.mem = true) ∧
    (s.cfg.memcap ≤ a → s.memWrite a v = none)

/-- Two canonical memories that read alike everywhere are the same list. The list and its canonical form are the model's
representation (log 6); the spec says only that the choice of store is invisible to programs (20_memory.md R54). -/
def Obligations.CanonicalMemoriesAreExtensional : Prop :=
  ∀ m m' : Memory, Memory.wf m = true → Memory.wf m' = true → (∀ a, Memory.read m a = Memory.read m' a) → m = m'

/-! ### The instructions -/

/-- MOV to a register copies the source's value truncated to the destination's view; no flag is written (41_move.md R131).
A source that is no Register, Immediate or MemAddr raises Execute. Flag effects rest on decision D18 (log 14). -/
def Obligations.MovToRegisterCopies : Prop :=
  ∀ (r : RegRef) (v : Value) (s2 s3 : Slot) (s : State),
    (∀ n, sourceRIM s2 = some n → exec (.mov (.register r v) s2 s3) s =
      .next (s.writeReg r ((BitVec.ofNat r.width.bits n).setWidth 128))) ∧
    (s2.isRIM = false → exec (.mov (.register r v) s2 s3) s = .next (raise .execute s))

/-- MOV to memory writes the source's value truncated to `W` at the operand's address, when it lies in memory, and changes
nothing else (41_move.md R131, 20_memory.md R57). The truncation to `W` is decision D30 (log 13), that no flag is written
D18 (log 14), and that `mar` and `mdr` stay as they were D20 (log 23), choices of the spec and not of the source. -/
def Obligations.MovToMemoryStores : Prop :=
  ∀ (a : Nat) (v : Value) (s2 s3 : Slot) (s : State) (n : Nat), Memory.wf s.mem = true → a < s.cfg.memcap →
    sourceRIM s2 = some n →
    ∃ t, exec (.mov (.memAddr a v) s2 s3) s = .next t ∧
      Memory.read t.mem a = (BitVec.ofNat s.cfg.w.bits n).setWidth 128 ∧ Frame [] [a] s t

/-- ADD at the destination's width: wrapped sum, zero and negative flag of the result, carry of the unsigned sum, overflow
of the signed sum (42_arithmetic.md R135, R136, R139, R140). FN and FO rest on decision D18 (log 14). -/
def Obligations.AddWritesSumAndFlags : Prop :=
  ∀ (r1 : RegRef) (v1 : Value) (s2 s3 : Slot) (n2 : Nat) (s : State), sourceRIM s2 = some n2 →
    let d := destination s3 r1
    let a := BitVec.ofNat d.width.bits v1.nat
    let b := BitVec.ofNat d.width.bits n2
    exec (.add (.register r1 v1) s2 s3) s = .next
      { s.writeReg d ((a + b).setWidth 128) with
        fz := (a + b) == 0, fn := (a + b).msb, fc := BitVec.uaddOverflow a b, fo := BitVec.saddOverflow a b }

/-- SUB at the destination's width: wrapped difference, borrow in FC, overflow of the signed difference in FO
(42_arithmetic.md R141). FN and FO rest on decision D18 (log 14). -/
def Obligations.SubWritesDifferenceAndFlags : Prop :=
  ∀ (r1 : RegRef) (v1 : Value) (s2 s3 : Slot) (n2 : Nat) (s : State), sourceRIM s2 = some n2 →
    let d := destination s3 r1
    let a := BitVec.ofNat d.width.bits v1.nat
    let b := BitVec.ofNat d.width.bits n2
    exec (.sub (.register r1 v1) s2 s3) s = .next
      { s.writeReg d ((a - b).setWidth 128) with
        fz := (a - b) == 0, fn := (a - b).msb, fc := BitVec.usubOverflow a b, fo := BitVec.ssubOverflow a b }

/-- MUL at the destination's width: the low `N` bits of the product; FC and FO are 0 (42_arithmetic.md R142, decision D18,
log 14). -/
def Obligations.MulWritesLowProduct : Prop :=
  ∀ (r1 : RegRef) (v1 : Value) (s2 s3 : Slot) (n2 : Nat) (s : State), sourceRIM s2 = some n2 →
    let d := destination s3 r1
    let r := BitVec.ofNat d.width.bits v1.nat * BitVec.ofNat d.width.bits n2
    exec (.mul (.register r1 v1) s2 s3) s = .next
      { s.writeReg d (r.setWidth 128) with fz := r == 0, fn := r.msb, fc := false, fo := false }

/-- DIV at the destination's width: the unsigned quotient when the truncated divisor is not zero; an Execute error that
writes nothing when it is (42_arithmetic.md R143, decisions D18, log 14, and D33, log 13). -/
def Obligations.DivWritesQuotientOrRaises : Prop :=
  ∀ (r1 : RegRef) (v1 : Value) (s2 s3 : Slot) (n2 : Nat) (s : State), sourceRIM s2 = some n2 →
    let d := destination s3 r1
    let b := BitVec.ofNat d.width.bits n2
    let r := (BitVec.ofNat d.width.bits v1.nat).udiv b
    (b ≠ 0 → exec (.div (.register r1 v1) s2 s3) s = .next
      { s.writeReg d (r.setWidth 128) with fz := r == 0, fn := r.msb, fc := false, fo := false }) ∧
    (b = 0 → exec (.div (.register r1 v1) s2 s3) s = .next (raise .execute s))

/-- AND, OR and XOR at the destination's width, bit by bit; FC and FO are 0 (43_bitwise.md R150 to R153, decision D18,
log 14). -/
def Obligations.BitwiseInstructionsWriteBitwiseResult : Prop :=
  ∀ (r1 : RegRef) (v1 : Value) (s2 s3 : Slot) (n2 : Nat) (s : State), sourceRIM s2 = some n2 →
    let d := destination s3 r1
    let a := BitVec.ofNat d.width.bits v1.nat
    let b := BitVec.ofNat d.width.bits n2
    let result (r : BitVec d.width.bits) : State :=
      { s.writeReg d (r.setWidth 128) with fz := r == 0, fn := r.msb, fc := false, fo := false }
    exec (.and (.register r1 v1) s2 s3) s = .next (result (a &&& b)) ∧
    exec (.or (.register r1 v1) s2 s3) s = .next (result (a ||| b)) ∧
    exec (.xor (.register r1 v1) s2 s3) s = .next (result (a ^^^ b))

/-- NOT inverts every bit at the destination's width; its optional destination is slot 2 (43_bitwise.md R154, decisions D18,
log 14, and D19, log 16). -/
def Obligations.NotWritesComplement : Prop :=
  ∀ (r1 : RegRef) (v1 : Value) (s2 s3 : Slot) (s : State),
    let d := destination s2 r1
    let r := ~~~(BitVec.ofNat d.width.bits v1.nat)
    exec (.not (.register r1 v1) s2 s3) s = .next
      { s.writeReg d (r.setWidth 128) with fz := r == 0, fn := r.msb, fc := false, fo := false }

/-- SHL and SHR shift logically by the whole amount modulo the destination's width, so an amount of `N` or more wraps; bits
shifted out do not reach FC (44_shift.md R160 to R163, decisions D18, log 14, and D31, log 21). -/
def Obligations.ShiftsMaskTheCountToTheWidth : Prop :=
  ∀ (r1 : RegRef) (v1 : Value) (s2 s3 : Slot) (n2 : Nat) (s : State), sourceRI s2 = some n2 →
    let d := destination s3 r1
    let a := BitVec.ofNat d.width.bits v1.nat
    let result (r : BitVec d.width.bits) : State :=
      { s.writeReg d (r.setWidth 128) with fz := r == 0, fn := r.msb, fc := false, fo := false }
    exec (.shl (.register r1 v1) s2 s3) s = .next (result (a <<< (n2 % d.width.bits))) ∧
    exec (.shr (.register r1 v1) s2 s3) s = .next (result (a >>> (n2 % d.width.bits)))

/-- ST stores the second register's value, brought to `W` bits, at the address in the first, or raises MemoryWrite at or
beyond `MEMCAP`; operands that are no registers raise Execute (45_load_store.md R167). Choices of the spec: the
two-register form and the Execute error of every other (R165, 30_encoding.md R85) are decisions D16 and D20 (logs 13, 23),
the store at `W` bits is D30 (20_memory.md R57, log 13), that `mar` and `mdr` stay as they were is D20 (log 23), and that
no flag is written D18 (log 14). -/
def Obligations.StStoresAtRegisterAddress : Prop :=
  (∀ (ra rv : RegRef) (va vv : Value) (s3 : Slot) (s : State), Memory.wf s.mem = true →
    (va.nat < s.cfg.memcap → ∃ t, exec (.st (.register ra va) (.register rv vv) s3) s = .next t ∧
      Memory.read t.mem va.nat = (BitVec.ofNat s.cfg.w.bits vv.nat).setWidth 128 ∧ Frame [] [va.nat] s t) ∧
    (s.cfg.memcap ≤ va.nat →
      exec (.st (.register ra va) (.register rv vv) s3) s = .next (raise .memoryWrite s))) ∧
  (∀ (s1 s2 s3 : Slot) (s : State), (s1.isReg && s2.isReg) = false →
    exec (.st s1 s2 s3) s = .next (raise .execute s))

/-- LD loads the cell at the address in the second register into the first through its view, or raises MemoryRead at or
beyond `MEMCAP`; operands that are no registers raise Execute; no flag is written (45_load_store.md R166). Choices of the
spec: the two-register form and the Execute error of every other (R165, 30_encoding.md R85) are decisions D16 and D20
(logs 13, 23), that `mar` and `mdr` stay as they were is D20 (log 23), that no flag is written D18 (log 14), and the load
through a view D5 and D30 (logs 15, 13). -/
def Obligations.LdLoadsFromRegisterAddress : Prop :=
  (∀ (rd ra : RegRef) (vd va : Value) (s3 : Slot) (s : State),
    (va.nat < s.cfg.memcap → exec (.ld (.register rd vd) (.register ra va) s3) s =
      .next (s.writeReg rd (((Memory.read s.mem va.nat).setWidth rd.width.bits).setWidth 128))) ∧
    (s.cfg.memcap ≤ va.nat →
      exec (.ld (.register rd vd) (.register ra va) s3) s = .next (raise .memoryRead s))) ∧
  (∀ (s1 s2 s3 : Slot) (s : State), (s1.isReg && s2.isReg) = false →
    exec (.ld s1 s2 s3) s = .next (raise .execute s))

/-- WDM sends one pixel transaction with the high byte first in each pair and changes nothing else, or raises Display when
the coordinates lie outside the display (46_pixel.md R170, R171; which byte is which is decision D21, log 18). -/
def Obligations.WdmSendsOnePixel : Prop :=
  ∀ (s1 s2 s3 : Slot) (rg ba xy : Nat) (s : State), sourceRIM s1 = some rg → sourceRIM s2 = some ba →
    sourceRIM s3 = some xy →
    let x := xy / 256 % 256
    let y := xy % 256
    (x < s.cfg.dw ∧ y < s.cfg.dh → ∃ p : SetPixel, exec (.wdm s1 s2 s3) s = .next { s with pixels := s.pixels ++ [p] } ∧
      p.x.toNat = x ∧ p.y.toNat = y ∧ p.r.toNat = rg / 256 % 256 ∧ p.g.toNat = rg % 256 ∧
      p.b.toNat = ba / 256 % 256 ∧ p.a.toNat = ba % 256) ∧
    (s.cfg.dw ≤ x ∨ s.cfg.dh ≤ y → exec (.wdm s1 s2 s3) s = .next (raise .display s))

/-- A taken jump, `JMP`, `JIZ` with FZ set, `JIN` with FN set, puts `pc` on the 0-based index of the line after the LAST
line that declares the label, and changes nothing else (47_control.md R176 to R178; decisions D22 and D23, log 13). That
the last declaration wins where several lines declare one name is a choice, decision D11 (30_encoding.md R75, log 20). -/
def Obligations.TakenJumpsGoToTheLineAfterTheLabel : Prop :=
  ∀ (n : List Char) (s2 s3 : Slot) (s : State) (i : Nat) (l : Line), launchRefusal s.cfg s.prog = none →
    s.prog[i]? = some l → lineClass s.cfg.cmt l = .label n →
    (∀ j l', i < j → s.prog[j]? = some l' → lineClass s.cfg.cmt l' ≠ .label n) →
    exec (.jmp (.symbol n) s2 s3) s = .next { s with pc := BitVec.ofNat 128 (i + 1) } ∧
    (s.fz = true → exec (.jiz (.symbol n) s2 s3) s = .next { s with pc := BitVec.ofNat 128 (i + 1) }) ∧
    (s.fn = true → exec (.jin (.symbol n) s2 s3) s = .next { s with pc := BitVec.ofNat 128 (i + 1) })

/-- `JIZ` with FZ clear and `JIN` with FN clear change nothing, whether or not the label exists (47_control.md R177, R178,
decision D22). -/
def Obligations.UntakenJumpsChangeNothing : Prop :=
  ∀ (n : List Char) (s2 s3 : Slot) (s : State),
    (s.fz = false → exec (.jiz (.symbol n) s2 s3) s = .next s) ∧
    (s.fn = false → exec (.jin (.symbol n) s2 s3) s = .next s)

/-- A jump that would be taken to a label no line declares raises Execute (47_control.md R176 to R178). -/
def Obligations.JumpsToMissingLabelsRaise : Prop :=
  ∀ (n : List Char) (s2 s3 : Slot) (s : State), (∀ l ∈ s.prog, lineClass s.cfg.cmt l ≠ .label n) →
    exec (.jmp (.symbol n) s2 s3) s = .next (raise .execute s) ∧
    (s.fz = true → exec (.jiz (.symbol n) s2 s3) s = .next (raise .execute s)) ∧
    (s.fn = true → exec (.jin (.symbol n) s2 s3) s = .next (raise .execute s))

/-- HALT sets `CYC` to Halt and changes nothing else, whatever its slots hold (47_control.md R180). -/
def Obligations.HaltOnlyStopsTheCycle : Prop :=
  ∀ (s1 s2 s3 : Slot) (s : State), ∃ t, exec (.halt s1 s2 s3) s = .next t ∧ t = { s with cyc := .halt }

/-- A line whose first token matches none of the 18 keywords decodes to the sentinel with its operands classified, and the
sentinel raises an Execute error, whatever its slots hold (47_control.md R183). -/
def Obligations.UnrecognisedOpcodesRaiseExecute : Prop :=
  (∀ (cmt : List Char) (l : Line) (kw : List Char) (args : List (List Char)), tokens cmt l = some (kw, args) →
    (∀ o ∈ namedOpcodes, kw.map toUpper ≠ o.keyword) →
    parseLine cmt l = some ⟨.unrecognised, classify cmt (args.getD 0 []), classify cmt (args.getD 1 []),
      classify cmt (args.getD 2 [])⟩) ∧
  (∀ (s1 s2 s3 : Slot) (s : State),
    exec (.unrecognised s1 s2 s3) s = .next { s with err := some .execute, cyc := .halt })

/-- A slot with a tag its format does not allow makes Execute raise an Execute error, before anything is written
(30_encoding.md R85, 40_pipeline.md R110; the table's restrictions are decision D16, log 13). -/
def Obligations.DisallowedTagsRaiseExecute : Prop :=
  ∀ (i : Instr) (s : State), i.shapeOk = false → exec i s = .next (raise .execute s)

/-- Each of the ten ALU instructions, when its destination is a flag: the four flags end with the values the flag update
gives the 1-bit result `r`, carry and overflow, the destination among them, and nothing else changes; so the result itself
is never what the destination flag holds as such (42_arithmetic.md R138). The destination may stand in slot 1 or in the
optional slot. DIV with an even divisor raises Execute. The flag policy, FN, FO and the FC of eight of them, is decision D18
(R137, log 14), the width D17 (log 16), and a flag as destination rests on log 29. -/
def Obligations.FlagUpdateWinsOverFlagDestination : Prop :=
  ∀ (f : Reg) (r1 : RegRef) (v1 : Value) (s2 s3 : Slot) (s : State), f ∈ flagRegs →
    let a := decide (v1.nat % 2 = 1)
    let ends (r c v : Bool) : Host.Outcome State Fault Refusal :=
      .next { s with fz := !r, fn := r, fc := c, fo := v }
    (∀ n2 : Nat, sourceRIM s2 = some n2 → destination s3 r1 = ⟨f, .w1⟩ →
      let b := decide (n2 % 2 = 1)
      exec (.add (.register r1 v1) s2 s3) s = ends (Bool.xor a b) (a && b) (a && b) ∧
      exec (.sub (.register r1 v1) s2 s3) s = ends (Bool.xor a b) (!a && b) (!a && b) ∧
      exec (.mul (.register r1 v1) s2 s3) s = ends (a && b) false false ∧
      (b = true → exec (.div (.register r1 v1) s2 s3) s = ends a false false) ∧
      (b = false → exec (.div (.register r1 v1) s2 s3) s = .next (raise .execute s)) ∧
      exec (.and (.register r1 v1) s2 s3) s = ends (a && b) false false ∧
      exec (.or (.register r1 v1) s2 s3) s = ends (a || b) false false ∧
      exec (.xor (.register r1 v1) s2 s3) s = ends (Bool.xor a b) false false) ∧
    (∀ n2 : Nat, sourceRI s2 = some n2 → destination s3 r1 = ⟨f, .w1⟩ →
      exec (.shl (.register r1 v1) s2 s3) s = ends a false false ∧
      exec (.shr (.register r1 v1) s2 s3) s = ends a false false) ∧
    (destination s2 r1 = ⟨f, .w1⟩ → exec (.not (.register r1 v1) s2 s3) s = ends (!a) false false)

/-! ### What instructions leave unchanged -/

/-- The nine two-source ALU instructions: an Execute error, or nothing changed but the destination register and the four
flags, and of the destination register only the low `N` bits (42_arithmetic.md R135 to R139; views, destination and flag policy are
decisions D5, D17 and D18, logs 15, 16 and 14). -/
def Obligations.TwoSourceAluFrame : Prop :=
  ∀ (r1 : RegRef) (v1 : Value) (s2 s3 : Slot) (s t : State) (i : Instr),
    i ∈ [Instr.add (.register r1 v1) s2 s3, .sub (.register r1 v1) s2 s3, .mul (.register r1 v1) s2 s3,
      .div (.register r1 v1) s2 s3, .and (.register r1 v1) s2 s3, .or (.register r1 v1) s2 s3,
      .xor (.register r1 v1) s2 s3, .shl (.register r1 v1) s2 s3, .shr (.register r1 v1) s2 s3] →
    exec i s = .next t →
    let d := destination s3 r1
    t = raise .execute s ∨
      (Frame (d.reg :: flagRegs) [] s t ∧
        (t.cell d.reg).toNat / 2 ^ d.width.bits = (s.cell d.reg).toNat / 2 ^ d.width.bits)

/-- NOT: nothing changed but the destination register, of it only the low `N` bits, and the four flags
(43_bitwise.md R154; decisions D5, D18 and D19, logs 15, 14 and 16). -/
def Obligations.NotFrame : Prop :=
  ∀ (r1 : RegRef) (v1 : Value) (s2 s3 : Slot) (s t : State), exec (.not (.register r1 v1) s2 s3) s = .next t →
    let d := destination s2 r1
    Frame (d.reg :: flagRegs) [] s t ∧
      (t.cell d.reg).toNat / 2 ^ d.width.bits = (s.cell d.reg).toNat / 2 ^ d.width.bits

/-- MOV to a register and LD: an error, or nothing changed but the destination register, of it only the low `N` bits; no
flag is written unless it is the destination (41_move.md R131, 45_load_store.md R166). Choices of the spec: the views are
decision D5 (log 15), the flags D18 (log 14), and that LD leaves `mar` and `mdr` as they were D20 (log 23). -/
def Obligations.CopyToRegisterFrame : Prop :=
  ∀ (r : RegRef) (v : Value) (s2 s3 : Slot) (s t : State) (i : Instr),
    i ∈ [Instr.mov (.register r v) s2 s3, .ld (.register r v) s2 s3] → exec i s = .next t →
    (∃ k, t = raise k s) ∨
      (Frame [r.reg] [] s t ∧ (t.cell r.reg).toNat / 2 ^ r.width.bits = (s.cell r.reg).toNat / 2 ^ r.width.bits)

/-- MOV to memory and ST: an error, or nothing changed but the one cell at the operand's address (MOV) or at the address
register's value (ST); no register and no flag is written (41_move.md R131, 45_load_store.md R167). That the registers
left as they were include `mar` and `mdr` is a choice, decision D20 (log 23), and that no flag is written D18 (log 14). -/
def Obligations.StoreFrame : Prop :=
  (∀ (a : Nat) (v : Value) (s2 s3 : Slot) (s t : State), exec (.mov (.memAddr a v) s2 s3) s = .next t →
    (∃ k, t = raise k s) ∨ Frame [] [a] s t) ∧
  (∀ (ra : RegRef) (va : Value) (s2 s3 : Slot) (s t : State), exec (.st (.register ra va) s2 s3) s = .next t →
    (∃ k, t = raise k s) ∨ Frame [] [va.nat] s t)

/-- JMP, JIZ and JIN: an Execute error, or nothing changed but `pc`; WDM: an error, or nothing changed but the pixel
transactions, which only grow by one at the end (47_control.md R176 to R178, 46_pixel.md R170). -/
def Obligations.JumpAndPixelFrame : Prop :=
  (∀ (s1 s2 s3 : Slot) (s t : State) (i : Instr), i ∈ [Instr.jmp s1 s2 s3, .jiz s1 s2 s3, .jin s1 s2 s3] →
    exec i s = .next t → t = raise .execute s ∨ Frame [.pc] [] s t) ∧
  (∀ (s1 s2 s3 : Slot) (s t : State), exec (.wdm s1 s2 s3) s = .next t →
    (∃ k, t = raise k s) ∨ ∃ p, t = { s with pixels := s.pixels ++ [p] })

/-! ### Machine-wide rules of Execute -/

/-- Errors are precise: an instruction either raises, changing only `ERR` and `CYC`, or completes with `ERR` as it was
(40_pipeline.md R111, R112; 60_exceptions.md R190, R191). -/
def Obligations.InstructionsRaiseOrComplete : Prop :=
  ∀ (i : Instr) (s : State), ∃ t, exec i s = .next t ∧
    ((∃ k, t = { s with err := some k, cyc := .halt } ∧
        k ∈ [ErrorKind.execute, .memoryRead, .memoryWrite, .display]) ∨
      (t.err = s.err ∧ (t.cyc = s.cyc ∨ (t.cyc = .halt ∧ i.opcode = .halt))))

/-- Who writes what, over all instructions: the configuration, `PROG`, `CAP` and `IR` are written by none; memory only by
MOV and ST; pixels only by WDM; the flags only by an ALU instruction or as a named destination; general-purpose registers,
`mar` and `mdr` only when a slot names them (10_state.md R28, R40; 20_memory.md R60, R66). Choices of the spec: that `mar`
and `mdr` are written only when named is decision D20 (10_state.md R27, log 23), and which instructions write flags is D18
(42_arithmetic.md R137, log 14). -/
def Obligations.InstructionsWriteOnlyWhatTheTableSays : Prop :=
  ∀ (i : Instr) (s t : State), exec i s = .next t →
    sameControl s t ∧
    (t.mem ≠ s.mem → i.opcode = .mov ∨ i.opcode = .st) ∧
    (t.pixels ≠ s.pixels → i.opcode = .wdm) ∧
    (∀ r : Reg, t.cell r ≠ s.cell r →
      (∃ (n : Width) (v : Value), Slot.register ⟨r, n⟩ v ∈ [i.slots.1, i.slots.2.1, i.slots.2.2]) ∨
      (r ∈ flagRegs ∧ i.opcode ∈ [Opcode.add, .sub, .mul, .div, .and, .or, .xor, .not, .shl, .shr]) ∨
      (r = .pc ∧ i.opcode ∈ [Opcode.jmp, .jiz, .jin]))

/-! ### The stages and the sequencer -/

/-- Fetch: the first Capturable line at or after `pc` is captured and `pc` moves past it; with none, the machine halts with
`ERR` as it was and `pc` at the end of the text, or where it was if already past it (40_pipeline.md R104). -/
def Obligations.FetchCapturesTheNextInstruction : Prop :=
  ∀ s : State, launchRefusal s.cfg s.prog = none → s.cyc = .fetch →
    (∀ (i : Nat) (l : Line), s.pc.toNat ≤ i → s.prog[i]? = some l → lineClass s.cfg.cmt l = .capturable →
      (∀ j l', s.pc.toNat ≤ j → j < i → s.prog[j]? = some l' → lineClass s.cfg.cmt l' ≠ .capturable) →
      step s = .next { s with pc := BitVec.ofNat 128 (i + 1), cap := l, cyc := .decode }) ∧
    ((∀ j l', s.pc.toNat ≤ j → s.prog[j]? = some l' → lineClass s.cfg.cmt l' ≠ .capturable) →
      step s = .next { s with pc := BitVec.ofNat 128 (max s.pc.toNat s.prog.length), cyc := .halt })

/-- Operand resolution (40_pipeline.md R106): what each classified operand becomes, and the two ways it can fail (R107, where
decision D15 makes a failure an error in any slot). That an immediate too large for the word is truncated is a choice of the
spec, decision D13 (30_encoding.md R84, log 13). -/
def Obligations.OperandsResolveAsTheRuleSays : Prop :=
  ∀ s : State, s.cyc ≠ .startup →
    (∀ n r, lookupName s.cfg n = some r → resolve s (.register n) = .ok (.register r (s.readReg r))) ∧
    (∀ n, lookupName s.cfg n = none → resolve s (.register n) = .error .registerRead) ∧
    (∀ a, a < s.cfg.memcap → resolve s (.memAddr a) = .ok (.memAddr a ⟨s.cfg.w, Memory.read s.mem a⟩)) ∧
    (∀ a, s.cfg.memcap ≤ a → resolve s (.memAddr a) = .error .memoryRead) ∧
    (∀ v, resolve s (.immediate v) = .ok (.immediate ⟨s.cfg.w, (BitVec.ofNat s.cfg.w.bits v).setWidth 128⟩)) ∧
    (∀ n, resolve s (.symbol n) = .ok (.symbol n)) ∧
    resolve s .none = .ok .none ∧ resolve s .malformed = .ok .malformed

/-- The Decode tick: all three slots are resolved whatever the opcode; the first failure, in slot order, is reported, and
then nothing is written but `ERR`, `CYC`, the latch (a free value) and the model's counter; otherwise the instruction is
latched and `CYC` names Execute (40_pipeline.md R105, R107; 60_exceptions.md R189; decision D15). -/
def Obligations.DecodeReportsTheFirstFailure : Prop :=
  ∀ (s : State) (src : SourceInstr), launchRefusal s.cfg s.prog = none → s.cyc = .decode →
    parseLine s.cfg.cmt s.cap = some src →
    (∀ s1 s2 s3, resolve s src.a1 = .ok s1 → resolve s src.a2 = .ok s2 → resolve s src.a3 = .ok s3 →
      step s = .next { s with ir := src.opc.instr s1 s2 s3, cyc := .execute }) ∧
    (∀ k, resolve s src.a1 = .error k ∨ (∃ s1, resolve s src.a1 = .ok s1 ∧ (resolve s src.a2 = .error k ∨
        ∃ s2, resolve s src.a2 = .ok s2 ∧ resolve s src.a3 = .error k)) →
      ∃ ir, step s = .next { s with err := some k, cyc := .halt, ir := ir, draws := s.draws + 1 })

/-- The Execute tick runs the latched instruction: the step is `exec` of it, and `CYC` goes back to Fetch unless the
instruction halted the machine (40_pipeline.md R109). -/
def Obligations.ExecuteTickRunsTheLatchedInstruction : Prop :=
  ∀ s t : State, launchRefusal s.cfg s.prog = none → s.cyc = .execute → exec s.ir s = .next t →
    step s = .next (if t.cyc = .halt then t else { t with cyc := .fetch })

/-- Three ticks run an instruction: when the line at `pc` is Capturable and decodes and resolves, after Fetch advanced
`pc`, to the instruction `i`, three steps give `exec i` of the state with `pc` advanced, `CAP` and `IR` latched, and then
`CYC` back at Fetch unless the machine halted (40_pipeline.md R104, R105, R109, R115). -/
def Obligations.ThreeTicksRunTheInstructionAtPc : Prop :=
  ∀ (s s1 t : State) (l : Line) (src : SourceInstr) (i : Instr), launchRefusal s.cfg s.prog = none →
    s.cyc = .fetch → s.prog[s.pc.toNat]? = some l → lineClass s.cfg.cmt l = .capturable →
    parseLine s.cfg.cmt l = some src →
    s1 = { s with pc := BitVec.ofNat 128 (s.pc.toNat + 1), cap := l, cyc := .decode } →
    resolveAll s1 src = .ok i → exec i { s1 with ir := i, cyc := .execute } = .next t →
    Host.Core.run Sys2Proof.core 3 s = .next (if t.cyc = .halt then t else { t with cyc := .fetch })

/-- Operand values are taken after Fetch advanced `pc`: the tick that captures line `i` leaves a state in which an operand
naming `pc` resolves to `i + 1` (40_pipeline.md R115 a, 10_state.md R26). -/
def Obligations.OperandPcIsTheNextLineIndex : Prop :=
  ∀ (s t : State) (i : Nat) (l : Line), launchRefusal s.cfg s.prog = none → s.cyc = .fetch → s.pc.toNat = i →
    s.prog[i]? = some l → lineClass s.cfg.cmt l = .capturable → step s = .next t →
    ∃ v : Value, resolve t (.register ['p', 'c']) = .ok (.register ⟨.pc, s.cfg.w⟩ v) ∧ v.nat = i + 1 ∧
      v.width = s.cfg.w

/-- No tick stops, and no tick changes the configuration or the program: a launched machine answers a next state with the
same configuration and program, for ever (40_pipeline.md R100; 00_scope.md R5; 20_memory.md R66). -/
def Obligations.LaunchedMachineAlwaysSteps : Prop :=
  ∀ s : State, launchRefusal s.cfg s.prog = none →
    ∃ t, step s = .next t ∧ t.cfg = s.cfg ∧ t.prog = s.prog

/-- Halt is terminal: no tick, AUTO_ON or AUTO_OFF changes a halted machine (40_pipeline.md R114, R102). -/
def Obligations.HaltIsTerminal : Prop :=
  ∀ s : State, launchRefusal s.cfg s.prog = none → s.cyc = .halt →
    hostEvent .tick s = .next s ∧ hostEvent .autoOn s = .next s ∧ hostEvent .autoOff s = .next s

/-- A stage reaches Halt in exactly three ways: Fetch found no Capturable line at or after `pc` (`ERR` as it was), HALT was
executed (`ERR` as it was), or a stage raised an error (`ERR` set) (40_pipeline.md R114). -/
def Obligations.HaltIsReachedInThreeWays : Prop :=
  ∀ s t : State, launchRefusal s.cfg s.prog = none → s.cyc ≠ .halt → s.cyc ≠ .autoStep → step s = .next t →
    t.cyc = .halt →
    (s.cyc = .fetch ∧ t.err = s.err ∧
      ∀ j l, s.pc.toNat ≤ j → s.prog[j]? = some l → lineClass s.cfg.cmt l ≠ .capturable) ∨
    (s.cyc = .execute ∧ t.err = s.err ∧ s.ir.opcode = .halt) ∨
    (s.cyc = .decode ∨ s.cyc = .execute) ∧ t.err ≠ none

/-- AutoStep adds no behaviour: a tick in AutoStep gives the state that at most `3K` single ticks from Fetch give, in Halt
if those reached Halt, back in AutoStep after exactly `3K` ticks otherwise (40_pipeline.md R113, R116). -/
def Obligations.AutoStepTickIsSingleTicks : Prop :=
  ∀ s t : State, launchRefusal s.cfg s.prog = none → s.cyc = .autoStep → step s = .next t →
    ∃ (n : Nat) (u : State), n ≤ 3 * s.cfg.k ∧
      Host.Core.run Sys2Proof.core n { s with cyc := .fetch } = .next u ∧
      ((u.cyc = .halt ∧ t = u) ∨ (u.cyc = .fetch ∧ n = 3 * s.cfg.k ∧ t = { u with cyc := .autoStep }))

/-! ### Reset, setup, load -/

/-- RESET with a legal configuration leaves the stated values, and no name is found while the Register File is empty
(70_reset_and_hazards.md R215, 10_state.md R41, R42; the values are decision D7). An illegal configuration is refused
(00_scope.md R6). The pixel list and the counter are the model's own (logs 8 and 12) and not part of this statement. -/
def Obligations.ResetLeavesTheStatedValues : Prop :=
  ∀ (c : Config) (s : State),
    (c.legal = true → ∃ t, hostEvent (.reset c) s = .next t ∧ t.cfg = c ∧ t.cyc = .startup ∧
      (∀ a, Memory.read t.mem a = 0) ∧ t.prog = [] ∧ t.cap = [] ∧ t.ir = .unrecognised .none .none .none ∧
      t.err = none ∧ ∀ n, t.lookup n = none) ∧
    (c.legal = false → hostEvent (.reset c) s = .refused .illegalConfiguration)

/-- The setup step: the tick in Startup creates every register holding zero and goes to Fetch; memory, program, latches
and error latch are as they were (70_reset_and_hazards.md R216, decision D7). -/
def Obligations.SetupStepZeroesTheRegisters : Prop :=
  ∀ s : State, launchRefusal s.cfg s.prog = none → s.cyc = .startup →
    ∃ t, step s = .next t ∧ t.cyc = .fetch ∧ (∀ r : Reg, t.cell r = 0) ∧ t.mem = s.mem ∧ t.err = s.err ∧
      t.pixels = s.pixels ∧ sameControl s t ∧ ∀ n, t.lookup n = lookupName s.cfg n

/-- LOAD replaces the program, puts `pc` to 0, clears `CAP`, `IR` and `ERR`, goes to Fetch (Startup stays Startup), and
keeps every other register, the flags, memory and the pixel transactions; a text that is not ASCII or has `2^W` lines or
more is refused (70_reset_and_hazards.md R217, R218; decisions D9, D23, D26). -/
def Obligations.LoadStartsANewRun : Prop :=
  ∀ (text : List (BitVec 8)) (s : State), s.cfg.legal = true →
    ((∀ b ∈ text, b.toNat < 128) → (cutLines (textOf text)).length < 2 ^ s.cfg.w.bits →
      ∃ t, hostEvent (.load text) s = .next t ∧ t.prog = cutLines (textOf text) ∧
        (s.cyc ≠ .startup → t.pc = 0 ∧ t.cyc = .fetch) ∧ (s.cyc = .startup → t.cyc = .startup) ∧
        t.cap = [] ∧ t.ir = .unrecognised .none .none .none ∧ t.err = none ∧ sameRegsBut [.pc] s t ∧
        t.mem = s.mem ∧ t.pixels = s.pixels ∧ t.cfg = s.cfg) ∧
    ((∃ b ∈ text, 128 ≤ b.toNat) → hostEvent (.load text) s = .refused .programNotAscii) ∧
    ((∀ b ∈ text, b.toNat < 128) → 2 ^ s.cfg.w.bits ≤ (cutLines (textOf text)).length →
      hostEvent (.load text) s = .refused .programTooLong)

/-- AUTO_ON is accepted only in Fetch and AUTO_OFF only in AutoStep; each changes nothing but `CYC`, and in every other
state nothing at all (40_pipeline.md R102, decision D25). -/
def Obligations.AutoStepSwitchesBetweenInstructions : Prop :=
  ∀ s : State,
    hostEvent .autoOn s = .next (if s.cyc = .fetch then { s with cyc := .autoStep } else s) ∧
    hostEvent .autoOff s = .next (if s.cyc = .autoStep then { s with cyc := .fetch } else s)

/-! ### Invariants -/

/-- The invariant holds after RESET with every legal configuration, so of the reset state of the interface, which is at
REF16 (log 1). -/
def Obligations.InvariantAfterReset : Prop :=
  (∀ c : Config, c.legal = true → State.Inv (State.resetWith c)) ∧ State.Inv State.reset

/-- Every tick keeps the invariant, from every state that has it: cells stay in their widths, registers that do not exist
stay untouched, memory stays canonical and inside `MEMCAP`, the latches hold what their stage needs, an error means Halt
(10_state.md R21 to R34; 20_memory.md R51; 60_exceptions.md R190). -/
def Obligations.StepKeepsTheInvariant : Prop :=
  ∀ s t : State, State.Inv s → step s = .next t → State.Inv t

/-- Every event of the host keeps the invariant (40_pipeline.md R102, 70_reset_and_hazards.md R217). -/
def Obligations.HostEventsKeepTheInvariant : Prop :=
  ∀ (e : HostEvent) (s t : State), State.Inv s → hostEvent e s = .next t → State.Inv t

/-- From a state with the invariant no tick reports one of the kinds the spec gives no cause: Fetch, Decode, RegisterWrite
(60_exceptions.md R186); and MOV never reports MemoryWrite, so that kind comes from ST alone. -/
def Obligations.CauselessErrorKindsNeverArise : Prop :=
  ∀ s t : State, State.Inv s → s.cyc ≠ .halt → step s = .next t →
    t.err ≠ some .fetch ∧ t.err ≠ some .decode ∧ t.err ≠ some .registerWrite ∧
      (s.cyc = .execute → t.err = some .memoryWrite → s.ir.opcode = .st)
end

