-- ==== Sys2Proof/Laws/State.lean ====
section
/-! SUPPORT. What each update of State leaves as it was and what it sets: one lemma per field per update. -/

namespace Sys2Proof.Machine

/-! ### raise -/

section Raise
variable (k : ErrorKind) (s : State)
@[simp] theorem raise_cfg : (raise k s).cfg = s.cfg := rfl
@[simp] theorem raise_cyc : (raise k s).cyc = .halt := rfl
@[simp] theorem raise_gpr : (raise k s).gpr = s.gpr := rfl
@[simp] theorem raise_pc : (raise k s).pc = s.pc := rfl
@[simp] theorem raise_mar : (raise k s).mar = s.mar := rfl
@[simp] theorem raise_mdr : (raise k s).mdr = s.mdr := rfl
@[simp] theorem raise_fz : (raise k s).fz = s.fz := rfl
@[simp] theorem raise_fn : (raise k s).fn = s.fn := rfl
@[simp] theorem raise_fc : (raise k s).fc = s.fc := rfl
@[simp] theorem raise_fo : (raise k s).fo = s.fo := rfl
@[simp] theorem raise_mem : (raise k s).mem = s.mem := rfl
@[simp] theorem raise_prog : (raise k s).prog = s.prog := rfl
@[simp] theorem raise_cap : (raise k s).cap = s.cap := rfl
@[simp] theorem raise_ir : (raise k s).ir = s.ir := rfl
@[simp] theorem raise_err : (raise k s).err = some k := rfl
@[simp] theorem raise_pixels : (raise k s).pixels = s.pixels := rfl
@[simp] theorem raise_draws : (raise k s).draws = s.draws := rfl
end Raise

/-! ### halt -/

section Halt
variable (s : State)
@[simp] theorem halt_cfg : (halt s).cfg = s.cfg := rfl
@[simp] theorem halt_cyc : (halt s).cyc = .halt := rfl
@[simp] theorem halt_gpr : (halt s).gpr = s.gpr := rfl
@[simp] theorem halt_pc : (halt s).pc = s.pc := rfl
@[simp] theorem halt_mar : (halt s).mar = s.mar := rfl
@[simp] theorem halt_mdr : (halt s).mdr = s.mdr := rfl
@[simp] theorem halt_fz : (halt s).fz = s.fz := rfl
@[simp] theorem halt_fn : (halt s).fn = s.fn := rfl
@[simp] theorem halt_fc : (halt s).fc = s.fc := rfl
@[simp] theorem halt_fo : (halt s).fo = s.fo := rfl
@[simp] theorem halt_mem : (halt s).mem = s.mem := rfl
@[simp] theorem halt_prog : (halt s).prog = s.prog := rfl
@[simp] theorem halt_cap : (halt s).cap = s.cap := rfl
@[simp] theorem halt_ir : (halt s).ir = s.ir := rfl
@[simp] theorem halt_err : (halt s).err = s.err := rfl
@[simp] theorem halt_pixels : (halt s).pixels = s.pixels := rfl
@[simp] theorem halt_draws : (halt s).draws = s.draws := rfl
end Halt

/-! ### setPc -/

section SetPc
variable (s : State) (t : Nat)
@[simp] theorem setPc_cfg : (s.setPc t).cfg = s.cfg := rfl
@[simp] theorem setPc_cyc : (s.setPc t).cyc = s.cyc := rfl
@[simp] theorem setPc_gpr : (s.setPc t).gpr = s.gpr := rfl
@[simp] theorem setPc_pc : (s.setPc t).pc = trunc s.cfg.w t := rfl
@[simp] theorem setPc_mar : (s.setPc t).mar = s.mar := rfl
@[simp] theorem setPc_mdr : (s.setPc t).mdr = s.mdr := rfl
@[simp] theorem setPc_fz : (s.setPc t).fz = s.fz := rfl
@[simp] theorem setPc_fn : (s.setPc t).fn = s.fn := rfl
@[simp] theorem setPc_fc : (s.setPc t).fc = s.fc := rfl
@[simp] theorem setPc_fo : (s.setPc t).fo = s.fo := rfl
@[simp] theorem setPc_mem : (s.setPc t).mem = s.mem := rfl
@[simp] theorem setPc_prog : (s.setPc t).prog = s.prog := rfl
@[simp] theorem setPc_cap : (s.setPc t).cap = s.cap := rfl
@[simp] theorem setPc_ir : (s.setPc t).ir = s.ir := rfl
@[simp] theorem setPc_err : (s.setPc t).err = s.err := rfl
@[simp] theorem setPc_pixels : (s.setPc t).pixels = s.pixels := rfl
@[simp] theorem setPc_draws : (s.setPc t).draws = s.draws := rfl
end SetPc

/-! ### setFlags -/

section SetFlags
variable (s : State) (w : Width) (res : AluResult)
@[simp] theorem setFlags_cfg : (s.setFlags w res).cfg = s.cfg := rfl
@[simp] theorem setFlags_cyc : (s.setFlags w res).cyc = s.cyc := rfl
@[simp] theorem setFlags_gpr : (s.setFlags w res).gpr = s.gpr := rfl
@[simp] theorem setFlags_pc : (s.setFlags w res).pc = s.pc := rfl
@[simp] theorem setFlags_mar : (s.setFlags w res).mar = s.mar := rfl
@[simp] theorem setFlags_mdr : (s.setFlags w res).mdr = s.mdr := rfl
@[simp] theorem setFlags_fz : (s.setFlags w res).fz = decide (res.r = 0) := rfl
@[simp] theorem setFlags_fn : (s.setFlags w res).fn = msb w res.r := rfl
@[simp] theorem setFlags_fc : (s.setFlags w res).fc = res.c := rfl
@[simp] theorem setFlags_fo : (s.setFlags w res).fo = res.v := rfl
@[simp] theorem setFlags_mem : (s.setFlags w res).mem = s.mem := rfl
@[simp] theorem setFlags_prog : (s.setFlags w res).prog = s.prog := rfl
@[simp] theorem setFlags_cap : (s.setFlags w res).cap = s.cap := rfl
@[simp] theorem setFlags_ir : (s.setFlags w res).ir = s.ir := rfl
@[simp] theorem setFlags_err : (s.setFlags w res).err = s.err := rfl
@[simp] theorem setFlags_pixels : (s.setFlags w res).pixels = s.pixels := rfl
@[simp] theorem setFlags_draws : (s.setFlags w res).draws = s.draws := rfl
end SetFlags

/-! ### setCell and writeReg: the fields no register is -/

section SetCell
variable (s : State) (r : Reg) (v : Word)
@[simp] theorem setCell_cfg : (s.setCell r v).cfg = s.cfg := by cases r <;> rfl
@[simp] theorem setCell_cyc : (s.setCell r v).cyc = s.cyc := by cases r <;> rfl
@[simp] theorem setCell_mem : (s.setCell r v).mem = s.mem := by cases r <;> rfl
@[simp] theorem setCell_prog : (s.setCell r v).prog = s.prog := by cases r <;> rfl
@[simp] theorem setCell_cap : (s.setCell r v).cap = s.cap := by cases r <;> rfl
@[simp] theorem setCell_ir : (s.setCell r v).ir = s.ir := by cases r <;> rfl
@[simp] theorem setCell_err : (s.setCell r v).err = s.err := by cases r <;> rfl
@[simp] theorem setCell_pixels : (s.setCell r v).pixels = s.pixels := by cases r <;> rfl
@[simp] theorem setCell_draws : (s.setCell r v).draws = s.draws := by cases r <;> rfl
end SetCell

section WriteReg
variable (s : State) (r : RegRef) (v : Word)
@[simp] theorem writeReg_cfg : (s.writeReg r v).cfg = s.cfg := setCell_cfg ..
@[simp] theorem writeReg_cyc : (s.writeReg r v).cyc = s.cyc := setCell_cyc ..
@[simp] theorem writeReg_mem : (s.writeReg r v).mem = s.mem := setCell_mem ..
@[simp] theorem writeReg_prog : (s.writeReg r v).prog = s.prog := setCell_prog ..
@[simp] theorem writeReg_cap : (s.writeReg r v).cap = s.cap := setCell_cap ..
@[simp] theorem writeReg_ir : (s.writeReg r v).ir = s.ir := setCell_ir ..
@[simp] theorem writeReg_err : (s.writeReg r v).err = s.err := setCell_err ..
@[simp] theorem writeReg_pixels : (s.writeReg r v).pixels = s.pixels := setCell_pixels ..
@[simp] theorem writeReg_draws : (s.writeReg r v).draws = s.draws := setCell_draws ..
end WriteReg

section AluWrite
variable (s : State) (d : RegRef) (res : AluResult)
@[simp] theorem aluWrite_cfg : (s.aluWrite d res).cfg = s.cfg := writeReg_cfg ..
@[simp] theorem aluWrite_cyc : (s.aluWrite d res).cyc = s.cyc := writeReg_cyc ..
@[simp] theorem aluWrite_fz : (s.aluWrite d res).fz = decide (res.r = 0) := rfl
@[simp] theorem aluWrite_fn : (s.aluWrite d res).fn = msb d.width res.r := rfl
@[simp] theorem aluWrite_fc : (s.aluWrite d res).fc = res.c := rfl
@[simp] theorem aluWrite_fo : (s.aluWrite d res).fo = res.v := rfl
@[simp] theorem aluWrite_mem : (s.aluWrite d res).mem = s.mem := writeReg_mem ..
@[simp] theorem aluWrite_prog : (s.aluWrite d res).prog = s.prog := writeReg_prog ..
@[simp] theorem aluWrite_cap : (s.aluWrite d res).cap = s.cap := writeReg_cap ..
@[simp] theorem aluWrite_ir : (s.aluWrite d res).ir = s.ir := writeReg_ir ..
@[simp] theorem aluWrite_err : (s.aluWrite d res).err = s.err := writeReg_err ..
@[simp] theorem aluWrite_pixels : (s.aluWrite d res).pixels = s.pixels := writeReg_pixels ..
@[simp] theorem aluWrite_draws : (s.aluWrite d res).draws = s.draws := writeReg_draws ..
end AluWrite

/-! ### The sequencer's updates -/

section AfterExecute
variable (s : State)
theorem afterExecute_of_halt (h : s.cyc = .halt) : afterExecute s = s := by simp [afterExecute, h]
theorem afterExecute_of_not_halt (h : s.cyc ≠ .halt) : afterExecute s = { s with cyc := .fetch } := by
  simp [afterExecute, h]
end AfterExecute

section DecodeError
variable (k : ErrorKind) (s : State)
@[simp] theorem decodeError_cyc : (decodeError k s).cyc = .halt := rfl
@[simp] theorem decodeError_err : (decodeError k s).err = some k := rfl
@[simp] theorem decodeError_draws : (decodeError k s).draws = s.draws + 1 := rfl
end DecodeError

/-! ### The registers after a write -/

/-- What a cell holds after `setCell`: a flag keeps the low bit. -/
def kept (r : Reg) (v : Word) : Word :=
  match r with
  | .fz | .fn | .fc | .fo => flagWord (v.getLsbD 0)
  | .pc | .mar | .mdr | .gpr _ => v

theorem cell_setCell_same (s : State) (r : Reg) (v : Word) : (s.setCell r v).cell r = kept r v := by
  cases r <;> simp [State.setCell, State.cell, kept]

theorem cell_setCell_other (s : State) (r r' : Reg) (v : Word) (h : r' ≠ r) :
    (s.setCell r v).cell r' = s.cell r' := by
  cases r <;> cases r' <;> simp_all [State.setCell, State.cell]
  rename_i i j
  exact Vector.getElem_set_ne i.isLt j.isLt (fun e => h (Fin.ext e.symm))

theorem cell_writeReg_other (s : State) (r : RegRef) (r' : Reg) (v : Word) (h : r' ≠ r.reg) :
    (s.writeReg r v).cell r' = s.cell r' := cell_setCell_other _ _ _ _ h

/-- A write leaves every flag but its destination as it was. -/
theorem writeReg_flags (s : State) (r : RegRef) (v : Word) :
    (r.reg ≠ .fz → (s.writeReg r v).fz = s.fz) ∧ (r.reg ≠ .fn → (s.writeReg r v).fn = s.fn) ∧
      (r.reg ≠ .fc → (s.writeReg r v).fc = s.fc) ∧ (r.reg ≠ .fo → (s.writeReg r v).fo = s.fo) := by
  obtain ⟨reg, w⟩ := r
  cases reg <;> simp [State.writeReg, State.setCell]

/-- When the destination is a flag the flag update alone shows (42_arithmetic.md R138). -/
theorem aluWrite_flag (s : State) {f : Reg} (hf : f ∈ flagRegs) (w : Width) (res : AluResult) :
    s.aluWrite ⟨f, w⟩ res = s.setFlags w res := by
  cases f <;> first | rfl | simp [flagRegs] at hf

end Sys2Proof.Machine
end

