-- ==== Sys2Proof/Laws/Memory.lean ====
section
/-! SUPPORT. The data memory: a read after a write, what a write leaves alone, and that a write keeps the canonical form. -/

namespace Sys2Proof.Machine

theorem Memory.wfFrom_mono {lo lo' : Nat} (h : lo' ≤ lo) : ∀ {m : Memory}, Memory.wfFrom lo m = true →
    Memory.wfFrom lo' m = true
  | [], _ => rfl
  | (b, v) :: rest, hm => by
    simp only [Memory.wfFrom, Bool.and_eq_true, decide_eq_true_eq] at hm ⊢
    exact ⟨⟨by omega, hm.1.2⟩, hm.2⟩

/-- An address below every listed one reads as the unlisted value. -/
theorem Memory.read_below {a lo : Nat} (h : a < lo) : ∀ {m : Memory}, Memory.wfFrom lo m = true →
    Memory.read m a = Memory.unlisted
  | [], _ => rfl
  | (b, v) :: rest, hm => by
    simp only [Memory.wfFrom, Bool.and_eq_true, decide_eq_true_eq] at hm
    have hne : a ≠ b := by omega
    rw [Memory.read, if_neg hne]
    exact Memory.read_below (lo := b + 1) (by omega) hm.2

/-- A read after a write to the same address gives the value written (20_memory.md R55). -/
theorem Memory.read_write_same {a : Nat} {v : Word} : ∀ {m : Memory} {lo : Nat}, Memory.wfFrom lo m = true →
    Memory.read (Memory.write m a v) a = v
  | [], _, _ => by by_cases hv : v = Memory.unlisted <;> simp [Memory.write, Memory.read, hv]
  | (b, u) :: rest, lo, hm => by
    simp only [Memory.wfFrom, Bool.and_eq_true, decide_eq_true_eq] at hm
    simp only [Memory.write]
    split_ifs with h1 h2 h3 h4
    · subst h2
      rw [Memory.read, if_neg (by omega)]
      exact Memory.read_below (lo := b + 1) (by omega) hm.2
    · simp [Memory.read]
    · subst h4
      exact Memory.read_below (lo := b + 1) (by omega) hm.2
    · simp [Memory.read]
    · rw [Memory.read, if_neg h3]
      exact Memory.read_write_same hm.2

/-- A write leaves every other address as it was. -/
theorem Memory.read_write_other {a a' : Nat} {v : Word} (hne : a' ≠ a) : ∀ {m : Memory},
    Memory.read (Memory.write m a v) a' = Memory.read m a'
  | [] => by by_cases hv : v = Memory.unlisted <;> simp [Memory.write, Memory.read, hv, hne]
  | (b, u) :: rest => by
    simp only [Memory.write]
    split_ifs with h1 h2 h3 h4
    · rfl
    · simp [Memory.read, hne]
    · subst h3; simp [Memory.read, hne]
    · subst h3; simp [Memory.read, hne]
    · simp only [Memory.read]
      rw [Memory.read_write_other hne]

theorem Memory.wfFrom_write {a : Nat} {v : Word} : ∀ {m : Memory} {lo : Nat}, lo ≤ a →
    Memory.wfFrom lo m = true → Memory.wfFrom lo (Memory.write m a v) = true
  | [], lo, hlo, _ => by by_cases hv : v = Memory.unlisted <;> simp [Memory.write, Memory.wfFrom, hv, hlo]
  | (b, u) :: rest, lo, hlo, hm => by
    have hm' := hm
    simp only [Memory.wfFrom, Bool.and_eq_true, decide_eq_true_eq] at hm
    simp only [Memory.write]
    split_ifs with h1 h2 h3 h4
    · exact hm'
    · simp only [Memory.wfFrom, Bool.and_eq_true, decide_eq_true_eq]
      exact ⟨⟨hlo, h2⟩, ⟨⟨by omega, hm.1.2⟩, hm.2⟩⟩
    · exact Memory.wfFrom_mono (by omega) hm.2
    · simp only [Memory.wfFrom, Bool.and_eq_true, decide_eq_true_eq]
      exact ⟨⟨hlo, h4⟩, by rw [h3]; exact hm.2⟩
    · simp only [Memory.wfFrom, Bool.and_eq_true, decide_eq_true_eq]
      exact ⟨hm.1, Memory.wfFrom_write (by omega) hm.2⟩

/-- Every memory operation keeps the canonical form. -/
theorem Memory.wf_write {m : Memory} (a : Nat) (v : Word) (h : Memory.wf m = true) :
    Memory.wf (Memory.write m a v) = true := Memory.wfFrom_write (Nat.zero_le a) h

/-- The cells listed after a write: the written one and cells listed before. -/
theorem Memory.mem_write {a : Nat} {v : Word} {p : Nat × Word} : ∀ {m : Memory}, p ∈ Memory.write m a v →
    p = (a, v) ∨ p ∈ m
  | [], h => by
    simp only [Memory.write] at h
    split_ifs at h <;> simp_all
  | (b, u) :: rest, h => by
    simp only [Memory.write] at h
    split_ifs at h with h1 h2 h3 h4
    · exact .inr h
    · simpa using h
    · exact .inr (List.mem_cons_of_mem _ h)
    · rcases List.mem_cons.mp h with h | h
      · exact .inl h
      · exact .inr (List.mem_cons_of_mem _ h)
    · rcases List.mem_cons.mp h with h | h
      · exact .inr (h ▸ List.mem_cons_self)
      · rcases Memory.mem_write h with h | h
        · exact .inl h
        · exact .inr (List.mem_cons_of_mem _ h)

/-- What an in-range cell reads as is the unlisted value or a listed cell. -/
theorem Memory.read_mem {a : Nat} : ∀ {m : Memory}, Memory.read m a = Memory.unlisted ∨ (a, Memory.read m a) ∈ m
  | [] => .inl rfl
  | (b, u) :: rest => by
    simp only [Memory.read]
    split_ifs with h
    · subst h; exact .inr List.mem_cons_self
    · exact (Memory.read_mem (m := rest)).imp id (List.mem_cons_of_mem _)

/-! ### The access primitives -/

theorem memRead_eq (s : State) (a : Nat) :
    s.memRead a = if s.cfg.memcap ≤ a then none else some (Memory.read s.mem a) := rfl

/-- Everything a successful store does. -/
theorem memWrite_some {s t : State} {a : Nat} {v : Word} (h : s.memWrite a v = some t) :
    a < s.cfg.memcap ∧ t = { s with mem := Memory.write s.mem a v } := by
  simp only [State.memWrite] at h
  split_ifs at h with hc
  exact ⟨by omega, by simpa using h.symm⟩

theorem memWrite_inRange {s : State} {a : Nat} (v : Word) (h : a < s.cfg.memcap) :
    s.memWrite a v = some { s with mem := Memory.write s.mem a v } := by
  simp [State.memWrite, Nat.not_le.mpr h]

theorem memWrite_outOfRange {s : State} {a : Nat} (v : Word) (h : s.cfg.memcap ≤ a) :
    s.memWrite a v = none := by simp [State.memWrite, h]

/-- Everything an accepted pixel does. -/
theorem setPixel_some {s t : State} {p : SetPixel} (h : s.setPixel p = some t) :
    p.x.toNat < s.cfg.dw ∧ p.y.toNat < s.cfg.dh ∧ t = { s with pixels := s.pixels ++ [p] } := by
  simp only [State.setPixel] at h
  split_ifs at h with hc
  exact ⟨by omega, by omega, by simpa using h.symm⟩

end Sys2Proof.Machine
end

