-- ==== Sys2Proof/Laws/Registers.lean ====
section
/-! SUPPORT. Conversions and register views: what `trunc` yields, what a register reads after a write through a view, and
that a write keeps a cell inside its width. -/

namespace Sys2Proof.Machine

theorem Width.bits_le (w : Width) : w.bits ≤ 128 := by cases w <;> decide

theorem Width.bits_pos (w : Width) : 0 < w.bits := by cases w <;> decide

theorem Width.two_pow_le (w : Width) : 2 ^ w.bits ≤ 2 ^ 128 :=
  Nat.pow_le_pow_right (by decide) (Width.bits_le w)

@[simp] theorem trunc_toNat (w : Width) (n : Nat) : (trunc w n).toNat = n % 2 ^ w.bits := by
  have h1 : n % 2 ^ w.bits < 2 ^ w.bits := Nat.mod_lt _ (Nat.two_pow_pos _)
  have h2 := Width.two_pow_le w
  simp only [trunc, BitVec.toNat_ofNat]
  exact Nat.mod_eq_of_lt (by omega)

theorem trunc_lt (w : Width) (n : Nat) : (trunc w n).toNat < 2 ^ w.bits := by
  rw [trunc_toNat]; exact Nat.mod_lt _ (Nat.two_pow_pos _)

theorem trunc_of_lt {w : Width} {n : Nat} (h : n < 2 ^ w.bits) : (trunc w n).toNat = n := by
  rw [trunc_toNat, Nat.mod_eq_of_lt h]

/-- The merged cell: the upper part of the old cell above the low part of the value. -/
theorem mergeLow_toNat (w : Width) (old v : Word) :
    (mergeLow w old v).toNat = old.toNat / 2 ^ w.bits * 2 ^ w.bits + v.toNat % 2 ^ w.bits := by
  have hm : v.toNat % 2 ^ w.bits < 2 ^ w.bits := Nat.mod_lt _ (Nat.two_pow_pos _)
  have hd : 2 ^ w.bits * 2 ^ (128 - w.bits) = 2 ^ 128 := by
    rw [← Nat.pow_add]; congr 1; have := Width.bits_le w; omega
  have hq : old.toNat / 2 ^ w.bits < 2 ^ (128 - w.bits) := by
    rw [Nat.div_lt_iff_lt_mul (Nat.two_pow_pos _), Nat.mul_comm, hd]; exact old.isLt
  have hlt : old.toNat / 2 ^ w.bits * 2 ^ w.bits + v.toNat % 2 ^ w.bits < 2 ^ 128 := by
    calc old.toNat / 2 ^ w.bits * 2 ^ w.bits + v.toNat % 2 ^ w.bits
        < old.toNat / 2 ^ w.bits * 2 ^ w.bits + 2 ^ w.bits := by omega
      _ = (old.toNat / 2 ^ w.bits + 1) * 2 ^ w.bits := by rw [Nat.add_mul, Nat.one_mul]
      _ ≤ 2 ^ (128 - w.bits) * 2 ^ w.bits := Nat.mul_le_mul_right _ hq
      _ = 2 ^ 128 := by rw [Nat.mul_comm, hd]
  rw [mergeLow, BitVec.toNat_ofNat, Nat.mod_eq_of_lt hlt]

theorem mergeLow_low (w : Width) (old v : Word) :
    (mergeLow w old v).toNat % 2 ^ w.bits = v.toNat % 2 ^ w.bits := by
  rw [mergeLow_toNat, Nat.mul_comm, Nat.mul_add_mod, Nat.mod_mod]

theorem mergeLow_high (w : Width) (old v : Word) :
    (mergeLow w old v).toNat / 2 ^ w.bits = old.toNat / 2 ^ w.bits := by
  rw [mergeLow_toNat, Nat.mul_comm, Nat.mul_add_div (Nat.two_pow_pos _),
    Nat.div_eq_of_lt (Nat.mod_lt _ (Nat.two_pow_pos _)), Nat.add_zero]

/-- A write through a view no wider than a cell keeps the cell inside its width. -/
theorem mergeLow_lt {w n : Width} (hw : n.bits ≤ w.bits) {old : Word} (v : Word) (h : old.toNat < 2 ^ w.bits) :
    (mergeLow n old v).toNat < 2 ^ w.bits := by
  have hm : v.toNat % 2 ^ n.bits < 2 ^ n.bits := Nat.mod_lt _ (Nat.two_pow_pos _)
  have hd : 2 ^ n.bits * 2 ^ (w.bits - n.bits) = 2 ^ w.bits := by
    rw [← Nat.pow_add]; congr 1; omega
  have hq : old.toNat / 2 ^ n.bits < 2 ^ (w.bits - n.bits) := by
    rw [Nat.div_lt_iff_lt_mul (Nat.two_pow_pos _), Nat.mul_comm, hd]; exact h
  rw [mergeLow_toNat]
  calc old.toNat / 2 ^ n.bits * 2 ^ n.bits + v.toNat % 2 ^ n.bits
      < old.toNat / 2 ^ n.bits * 2 ^ n.bits + 2 ^ n.bits := by omega
    _ = (old.toNat / 2 ^ n.bits + 1) * 2 ^ n.bits := by rw [Nat.add_mul, Nat.one_mul]
    _ ≤ 2 ^ (w.bits - n.bits) * 2 ^ n.bits := Nat.mul_le_mul_right _ hq
    _ = 2 ^ w.bits := by rw [Nat.mul_comm, hd]

/-- The cell of the written register. -/
theorem cell_writeReg_same (s : State) (r : RegRef) (v : Word) :
    (s.writeReg r v).cell r.reg = kept r.reg (mergeLow r.width (s.cell r.reg) v) := cell_setCell_same ..

theorem readReg_width (s : State) (r : RegRef) : (s.readReg r).width = r.width := rfl

theorem readReg_nat (s : State) (r : RegRef) : (s.readReg r).nat = (s.cell r.reg).toNat % 2 ^ r.width.bits :=
  trunc_toNat ..

theorem readReg_fits (s : State) (r : RegRef) : (s.readReg r).fits = true := by
  simp only [Value.fits, decide_eq_true_eq]
  exact trunc_lt ..

theorem flagWord_getLsbD (v : Word) : (flagWord (v.getLsbD 0)).toNat = v.toNat % 2 := by
  rw [← BitVec.testBit_toNat, Nat.testBit_zero]
  rcases Nat.mod_two_eq_zero_or_one v.toNat with h | h <;> simp [flagWord, h]

/-- A read after a write through the same reference gives the value written, at the view's width. -/
theorem readReg_writeReg_same {c : Config} {s : State} {r : RegRef} (hr : r.ok c = true) (v : Word) :
    ((s.writeReg r v).readReg r).nat = v.toNat % 2 ^ r.width.bits := by
  rw [readReg_nat, cell_writeReg_same]
  obtain ⟨reg, w⟩ := r
  cases reg <;>
    simp only [RegRef.ok, decide_eq_true_eq, Bool.and_eq_true, Bool.or_eq_true] at hr <;>
    simp only [kept, mergeLow_low] <;>
    (subst hr; simp only [flagWord_getLsbD, Width.bits, Nat.pow_one, Nat.mod_mod]; exact mergeLow_low .w1 _ _)

end Sys2Proof.Machine
end

