-- ==== Sys2Proof/Laws/Alu.lean ====
section
/-! SUPPORT. The model's number arithmetic in Lean's fixed-width arithmetic, and the frames of the shared writes. -/

namespace Sys2Proof.Machine

/-! ### Fixed-width readings -/

/-- `trunc` is the value brought to `N` bits and zero-extended to the machine's word. -/
theorem trunc_eq_setWidth (w : Width) (n : Nat) : trunc w n = (BitVec.ofNat w.bits n).setWidth 128 := by
  apply BitVec.eq_of_toNat_eq
  have h1 := Width.two_pow_le w
  have h2 := Nat.mod_lt n (Nat.two_pow_pos w.bits)
  simp only [trunc_toNat, BitVec.toNat_setWidth, BitVec.toNat_ofNat]
  omega

theorem trunc_bits_toNat (w : Width) (r : BitVec w.bits) : trunc w r.toNat = r.setWidth 128 := by
  rw [trunc_eq_setWidth, BitVec.ofNat_toNat, BitVec.setWidth_eq]

/-- Bit `N-1` is the top bit of the `N`-bit value. -/
theorem msb_bits_toNat (w : Width) (r : BitVec w.bits) : msb w r.toNat = r.msb := by
  rw [msb, BitVec.msb_eq_getLsbD_last, BitVec.testBit_toNat]

theorem decide_toNat_eq_zero {n : Nat} (r : BitVec n) : decide (r.toNat = 0) = (r == 0) := by
  rw [Bool.eq_iff_iff]
  simp [BitVec.toNat_eq]

/-- What an ALU result leaves, with the result as an `N`-bit value. -/
theorem aluWrite_eq_bits (s : State) (d : RegRef) (res : AluResult) (r : BitVec d.width.bits) (h : res.r = r.toNat) :
    s.aluWrite d res =
      { s.writeReg d (r.setWidth 128) with fz := r == 0, fn := r.msb, fc := res.c, fo := res.v } := by
  rw [State.aluWrite, State.setFlags, h, trunc_bits_toNat, msb_bits_toNat, decide_toNat_eq_zero]

/-! ### Frames of the shared writes -/

theorem flagWord_div (w : Width) (b : Bool) : (flagWord b).toNat / 2 ^ w.bits = 0 := by
  have h : 2 ^ 1 ≤ 2 ^ w.bits := Nat.pow_le_pow_right (by decide) (Width.bits_pos w)
  apply Nat.div_eq_of_lt
  cases b
  · exact Nat.two_pow_pos _
  · exact Nat.lt_of_lt_of_le (by decide) h

/-- A write through a view leaves the bits above the view as they were. -/
theorem writeReg_high (s : State) (r : RegRef) (v : Word) :
    ((s.writeReg r v).cell r.reg).toNat / 2 ^ r.width.bits = (s.cell r.reg).toNat / 2 ^ r.width.bits := by
  rw [cell_writeReg_same]
  obtain ⟨reg, w⟩ := r
  cases reg <;> simp only [kept, State.cell, flagWord_div] <;> exact mergeLow_high ..

theorem writeReg_frame (s : State) (r : RegRef) (v : Word) : Frame [r.reg] [] s (s.writeReg r v) :=
  ⟨fun r' h => cell_writeReg_other _ _ r' _ (by simpa using h), fun a _ => by simp, by simp, by simp, by simp,
    by simp, by simp, by simp, by simp, by simp⟩

theorem memWrite_frame (s : State) (a : Nat) (v : Word) :
    Frame [] [a] s { s with mem := Memory.write s.mem a v } :=
  ⟨fun r _ => by cases r <;> rfl, fun _ h => Memory.read_write_other (by simpa using h), rfl, rfl, rfl,
    rfl, rfl, rfl, rfl, rfl⟩

theorem setPc_frame (s : State) (t : Nat) : Frame [.pc] [] s (s.setPc t) :=
  ⟨fun r h => by cases r <;> first | rfl | simp at h, fun _ _ => rfl, rfl, rfl, rfl, rfl, rfl, rfl, rfl, rfl⟩

theorem Frame.refl (rs : List Reg) (as : List Nat) (s : State) : Frame rs as s s :=
  ⟨fun _ _ => rfl, fun _ _ => rfl, rfl, rfl, rfl, rfl, rfl, rfl, rfl, rfl⟩

/-- The flag update touches the flag registers only. -/
theorem cell_aluWrite (s : State) (d : RegRef) (res : AluResult) (r : Reg) (h : r ∉ flagRegs) :
    (s.aluWrite d res).cell r = (s.writeReg d (trunc d.width res.r)).cell r := by
  cases r <;> first | rfl | simp [flagRegs] at h

theorem aluWrite_frame (s : State) (d : RegRef) (res : AluResult) :
    Frame (d.reg :: flagRegs) [] s (s.aluWrite d res) ∧
      ((s.aluWrite d res).cell d.reg).toNat / 2 ^ d.width.bits = (s.cell d.reg).toNat / 2 ^ d.width.bits := by
  refine ⟨⟨?_, fun a _ => by simp, by simp, by simp, by simp, by simp, by simp, by simp, by simp, by simp⟩, ?_⟩
  · intro r h
    simp only [List.mem_cons, not_or] at h
    rw [cell_aluWrite _ _ _ _ (by simpa [flagRegs] using h.2)]
    exact cell_writeReg_other _ _ _ _ h.1
  · by_cases hf : d.reg ∈ flagRegs
    · simp only [flagRegs, List.mem_cons, List.not_mem_nil, or_false] at hf
      rcases hf with h | h | h | h <;> rw [h] <;> simp only [State.cell, flagWord_div]
    · rw [cell_aluWrite _ _ _ _ hf]
      exact writeReg_high ..

end Sys2Proof.Machine
end

