-- ==== Sys2Proof/Laws/Exec.lean ====
section
/-! SUPPORT. Everything an instruction can do, said once: `exec` always answers a next state, and that state is one of the
eight effects of `Effect`. Later proofs cite `exec_effect` and never unfold a meaning. -/

namespace Sys2Proof.Machine

/-- The ten ALU instructions (10_state.md R28). -/
def Opcode.isAlu : Opcode → Bool
  | .add | .sub | .mul | .div | .and | .or | .xor | .not | .shl | .shr => true
  | .unrecognised | .mov | .st | .ld | .wdm | .jmp | .jiz | .jin | .halt => false

/-- Slot `x` is one of the instruction's slots. -/
def Instr.hasSlot (i : Instr) (x : Slot) : Prop := x = i.slots.1 ∨ x = i.slots.2.1 ∨ x = i.slots.2.2

/-- Why an instruction raises an error (60_exceptions.md R186). -/
inductive ErrorCause (i : Instr) (s : State) : ErrorKind → Prop where
  | execute : ErrorCause i s .execute
  | load (h : i.opcode = .ld) : ErrorCause i s .memoryRead
  | store (h : i.opcode = .st) : ErrorCause i s .memoryWrite
  | move (a : Nat) (v : Value) (h : i.opcode = .mov) (h1 : i.slots.1 = .memAddr a v) (ha : s.cfg.memcap ≤ a) :
      ErrorCause i s .memoryWrite
  | display (h : i.opcode = .wdm) : ErrorCause i s .display

/-- What the Execute stage of an instruction does to the state. -/
inductive Effect (i : Instr) (s : State) : State → Prop where
  | error (k : ErrorKind) (h : ErrorCause i s k) : Effect i s (raise k s)
  | stop (h : i.opcode = .halt) : Effect i s (halt s)
  | alu (d : RegRef) (v : Value) (res : AluResult) (h : Opcode.isAlu i.opcode = true)
      (hd : Instr.hasSlot i (.register d v)) : Effect i s (s.aluWrite d res)
  | copy (r : RegRef) (v : Value) (n : Nat) (h : i.opcode = .mov ∨ i.opcode = .ld)
      (hr : i.slots.1 = .register r v) : Effect i s (s.writeReg r (trunc r.width n))
  | store (a n : Nat) (ha : a < s.cfg.memcap)
      (h : (i.opcode = .mov ∧ ∃ v, i.slots.1 = .memAddr a v) ∨
        (i.opcode = .st ∧ ∃ r v, i.slots.1 = .register r v ∧ a = v.nat)) :
      Effect i s { s with mem := Memory.write s.mem a (trunc s.cfg.w n) }
  | pixel (p : SetPixel) (h : i.opcode = .wdm) (hx : p.x.toNat < s.cfg.dw) (hy : p.y.toNat < s.cfg.dh) :
      Effect i s { s with pixels := s.pixels ++ [p] }
  | jump (t : Nat) (h : i.opcode = .jmp ∨ i.opcode = .jiz ∨ i.opcode = .jin) : Effect i s (s.setPc t)
  | fallThrough (h : i.opcode = .jiz ∨ i.opcode = .jin) : Effect i s s

/-- The destination of an ALU instruction is one of its slots. -/
theorem destination_slot (o : Slot) (r1 : RegRef) (v1 : Value) :
    ∃ v, (Slot.register (destination o r1) v = o) ∨ (destination o r1 = r1 ∧ v = v1) := by
  cases o with
  | register r v => exact ⟨v, .inl rfl⟩
  | _ => exact ⟨v1, .inr ⟨rfl, rfl⟩⟩

/-- Everything the two-source template can do (42_arithmetic.md R139). -/
theorem alu2_cases (op : Width → Nat → Nat → Option AluResult) (second : Slot → Option Nat) (s1 s2 s3 : Slot)
    (s : State) :
    alu2 op second s1 s2 s3 s = .next (raise .execute s) ∨
      ∃ r1 v1 res, s1 = .register r1 v1 ∧ alu2 op second s1 s2 s3 s = .next (s.aluWrite (destination s3 r1) res) := by
  cases s1 with
  | register r1 v1 =>
    cases h2 : second s2 with
    | none => exact .inl (by simp [alu2, h2])
    | some n2 =>
      cases hop : op (destination s3 r1).width (v1.nat % 2 ^ (destination s3 r1).width.bits)
          (n2 % 2 ^ (destination s3 r1).width.bits) with
      | none => exact .inl (by simp [alu2, h2, hop])
      | some res => exact .inr ⟨r1, v1, res, rfl, by simp [alu2, h2, hop]⟩
  | _ => exact .inl rfl

/-- The template's result when the tags are allowed and the operation reports one. -/
theorem alu2_next {op : Width → Nat → Nat → Option AluResult} {second : Slot → Option Nat} {r1 : RegRef} {v1 : Value}
    {s2 s3 : Slot} {s : State} {n2 : Nat} {res : AluResult} (h2 : second s2 = some n2)
    (hop : op (destination s3 r1).width (v1.nat % 2 ^ (destination s3 r1).width.bits)
      (n2 % 2 ^ (destination s3 r1).width.bits) = some res) :
    alu2 op second (.register r1 v1) s2 s3 s = .next (s.aluWrite (destination s3 r1) res) := by
  simp [alu2, h2, hop]

theorem alu2_effect {op : Width → Nat → Nat → Option AluResult} {second : Slot → Option Nat} {s1 s2 s3 : Slot}
    {i : Instr} (s : State) (hi : i.slots = (s1, s2, s3)) (ha : Opcode.isAlu i.opcode = true) :
    ∃ t, alu2 op second s1 s2 s3 s = .next t ∧ Effect i s t := by
  rcases alu2_cases op second s1 s2 s3 s with h | ⟨r1, v1, res, h1, h⟩
  · exact ⟨_, h, .error _ .execute⟩
  · obtain ⟨v, hv | ⟨hd, rfl⟩⟩ := destination_slot s3 r1 v1
    · exact ⟨_, h, .alu _ v res ha (by simp [Instr.hasSlot, hi, hv])⟩
    · exact ⟨_, h, .alu _ v res ha (by simp [Instr.hasSlot, hi, hd, h1])⟩

theorem execMov_effect (a b c : Slot) (s : State) :
    ∃ t, execMov a b s = .next t ∧ Effect (.mov a b c) s t := by
  cases a with
  | register r v =>
    cases hb : sourceRIM b with
    | none => exact ⟨_, by simp [execMov, hb], .error _ .execute⟩
    | some n => exact ⟨_, by simp [execMov, hb], .copy r v n (.inl rfl) rfl⟩
  | memAddr a v =>
    cases hb : sourceRIM b with
    | none => exact ⟨_, by simp [execMov, hb], .error _ .execute⟩
    | some n =>
      by_cases h : a < s.cfg.memcap
      · exact ⟨_, by simp [execMov, hb, memWrite_inRange _ h], .store a n h (.inl ⟨rfl, v, rfl⟩)⟩
      · exact ⟨_, by simp [execMov, hb, memWrite_outOfRange _ (Nat.le_of_not_lt h)],
          .error _ (.move a v rfl rfl (Nat.le_of_not_lt h))⟩
  | _ => exact ⟨_, rfl, .error _ .execute⟩

theorem execNot_effect (a b c : Slot) (s : State) :
    ∃ t, execNot a b s = .next t ∧ Effect (.not a b c) s t := by
  cases a with
  | register r1 v1 =>
    obtain ⟨v, hv | ⟨hd, rfl⟩⟩ := destination_slot b r1 v1
    · exact ⟨_, rfl, .alu _ v _ rfl (by simp [Instr.hasSlot, Instr.slots, hv])⟩
    · exact ⟨_, rfl, .alu _ v _ rfl (by simp [Instr.hasSlot, Instr.slots, hd])⟩
  | _ => exact ⟨_, rfl, .error _ .execute⟩

theorem execSt_effect (a b c : Slot) (s : State) : ∃ t, execSt a b s = .next t ∧ Effect (.st a b c) s t := by
  cases a with
  | register ra va =>
    cases b with
    | register rv vv =>
      by_cases h : va.nat < s.cfg.memcap
      · exact ⟨_, by simp [execSt, memWrite_inRange _ h], .store va.nat vv.nat h (.inr ⟨rfl, ra, va, rfl, rfl⟩)⟩
      · exact ⟨_, by simp [execSt, memWrite_outOfRange _ (Nat.le_of_not_lt h)], .error _ (.store rfl)⟩
    | _ => exact ⟨_, rfl, .error _ .execute⟩
  | _ => cases b <;> exact ⟨_, rfl, .error _ .execute⟩

theorem execLd_effect (a b c : Slot) (s : State) : ∃ t, execLd a b s = .next t ∧ Effect (.ld a b c) s t := by
  cases a with
  | register r v =>
    cases b with
    | register ra va =>
      cases h : s.memRead va.nat with
      | none => exact ⟨_, by simp [execLd, h], .error _ (.load rfl)⟩
      | some x => exact ⟨_, by simp [execLd, h], .copy r v x.toNat (.inr rfl) rfl⟩
    | _ => exact ⟨_, rfl, .error _ .execute⟩
  | _ => cases b <;> exact ⟨_, rfl, .error _ .execute⟩

theorem execWdm_effect (a b c : Slot) (s : State) :
    ∃ t, execWdm a b c s = .next t ∧ Effect (.wdm a b c) s t := by
  cases ha : sourceRIM a with
  | none => exact ⟨_, by simp [execWdm, ha], .error _ .execute⟩
  | some rg =>
    cases hb : sourceRIM b with
    | none => exact ⟨_, by simp [execWdm, ha, hb], .error _ .execute⟩
    | some ba =>
      cases hc : sourceRIM c with
      | none => exact ⟨_, by simp [execWdm, ha, hb, hc], .error _ .execute⟩
      | some xy =>
        cases hp : s.setPixel (pixelOf rg ba xy) with
        | none => exact ⟨_, by simp [execWdm, ha, hb, hc, hp], .error _ (.display rfl)⟩
        | some t =>
          obtain ⟨hx, hy, rfl⟩ := setPixel_some hp
          exact ⟨_, by simp [execWdm, ha, hb, hc, hp], .pixel _ rfl hx hy⟩

theorem jumpTo_effect {i : Instr} (name : List Char) (s : State)
    (h : i.opcode = .jmp ∨ i.opcode = .jiz ∨ i.opcode = .jin) : Effect i s (jumpTo name s) := by
  cases hl : s.label name with
  | none => simpa [jumpTo, hl] using Effect.error (i := i) (s := s) _ .execute
  | some t => simpa [jumpTo, hl] using Effect.jump (s := s) t h

/-- THE inversion lemma: `exec` answers a next state, by one of the effects. -/
theorem exec_effect (i : Instr) (s : State) : ∃ t, exec i s = .next t ∧ Effect i s t := by
  cases i with
  | unrecognised => exact ⟨_, rfl, .error _ .execute⟩
  | mov a b c => exact execMov_effect a b c s
  | add a b c => simp only [exec, execAdd]; exact alu2_effect s rfl rfl
  | sub a b c => simp only [exec, execSub]; exact alu2_effect s rfl rfl
  | mul a b c => simp only [exec, execMul]; exact alu2_effect s rfl rfl
  | div a b c => simp only [exec, execDiv]; exact alu2_effect s rfl rfl
  | and a b c => simp only [exec, execAnd]; exact alu2_effect s rfl rfl
  | or a b c => simp only [exec, execOr]; exact alu2_effect s rfl rfl
  | xor a b c => simp only [exec, execXor]; exact alu2_effect s rfl rfl
  | not a b c => exact execNot_effect a b c s
  | shl a b c => simp only [exec, execShl]; exact alu2_effect s rfl rfl
  | shr a b c => simp only [exec, execShr]; exact alu2_effect s rfl rfl
  | st a b c => exact execSt_effect a b c s
  | ld a b c => exact execLd_effect a b c s
  | wdm a b c => exact execWdm_effect a b c s
  | jmp a b c =>
    cases a with
    | symbol name => exact ⟨_, rfl, jumpTo_effect name s (.inl rfl)⟩
    | _ => exact ⟨_, rfl, .error _ .execute⟩
  | jiz a b c =>
    cases a with
    | symbol name =>
      by_cases h : s.fz = true
      · exact ⟨_, by simp [exec, execJiz, h], jumpTo_effect name s (.inr (.inl rfl))⟩
      · exact ⟨_, by simp [exec, execJiz, h], .fallThrough (.inl rfl)⟩
    | _ => exact ⟨_, rfl, .error _ .execute⟩
  | jin a b c =>
    cases a with
    | symbol name =>
      by_cases h : s.fn = true
      · exact ⟨_, by simp [exec, execJin, h], jumpTo_effect name s (.inr (.inr rfl))⟩
      · exact ⟨_, by simp [exec, execJin, h], .fallThrough (.inr rfl)⟩
    | _ => exact ⟨_, rfl, .error _ .execute⟩
  | halt => exact ⟨_, rfl, .stop rfl⟩

/-- What `exec` answers is an effect of the instruction. -/
theorem effect_of_exec {i : Instr} {s t : State} (h : exec i s = .next t) : Effect i s t := by
  obtain ⟨t', h', he⟩ := exec_effect i s
  rw [h] at h'
  cases h'
  exact he

/-- No effect touches what only Fetch, Decode and the host write (10_state.md R40). -/
theorem Effect.frame {i : Instr} {s t : State} (h : Effect i s t) :
    t.cfg = s.cfg ∧ t.prog = s.prog ∧ t.cap = s.cap ∧ t.ir = s.ir ∧ t.draws = s.draws := by
  cases h <;> simp

end Sys2Proof.Machine
end

