-- ==== Sys2Proof/Laws/PerInstr.lean ====
section
/-! SUPPORT. Statements made per instruction. `Keyword`: the keyword and the number of the instruction's opcode name that
opcode and no other, and its opcode and slots are all the instruction is (30_encoding.md R78, R79). -/

namespace Sys2Proof.Laws

/-- The syntax facts of one instruction. -/
def Keyword.Statement (i : Instr) : Prop :=
  opcodeOf i.opcode.keyword = i.opcode ∧ opcodeOfCode i.opcode.code = some i.opcode ∧
    i.opcode.instr i.slots.1 i.slots.2.1 i.slots.2.2 = i

theorem Keyword.unrecognised (s1 s2 s3 : Slot) : Keyword.Statement (.unrecognised s1 s2 s3) :=
  ⟨(by decide : opcodeOf Opcode.unrecognised.keyword = Opcode.unrecognised), rfl, rfl⟩

theorem Keyword.mov (s1 s2 s3 : Slot) : Keyword.Statement (.mov s1 s2 s3) :=
  ⟨(by decide : opcodeOf Opcode.mov.keyword = Opcode.mov), rfl, rfl⟩

theorem Keyword.add (s1 s2 s3 : Slot) : Keyword.Statement (.add s1 s2 s3) :=
  ⟨(by decide : opcodeOf Opcode.add.keyword = Opcode.add), rfl, rfl⟩

theorem Keyword.sub (s1 s2 s3 : Slot) : Keyword.Statement (.sub s1 s2 s3) :=
  ⟨(by decide : opcodeOf Opcode.sub.keyword = Opcode.sub), rfl, rfl⟩

theorem Keyword.mul (s1 s2 s3 : Slot) : Keyword.Statement (.mul s1 s2 s3) :=
  ⟨(by decide : opcodeOf Opcode.mul.keyword = Opcode.mul), rfl, rfl⟩

theorem Keyword.div (s1 s2 s3 : Slot) : Keyword.Statement (.div s1 s2 s3) :=
  ⟨(by decide : opcodeOf Opcode.div.keyword = Opcode.div), rfl, rfl⟩

theorem Keyword.and (s1 s2 s3 : Slot) : Keyword.Statement (.and s1 s2 s3) :=
  ⟨(by decide : opcodeOf Opcode.and.keyword = Opcode.and), rfl, rfl⟩

theorem Keyword.or (s1 s2 s3 : Slot) : Keyword.Statement (.or s1 s2 s3) :=
  ⟨(by decide : opcodeOf Opcode.or.keyword = Opcode.or), rfl, rfl⟩

theorem Keyword.xor (s1 s2 s3 : Slot) : Keyword.Statement (.xor s1 s2 s3) :=
  ⟨(by decide : opcodeOf Opcode.xor.keyword = Opcode.xor), rfl, rfl⟩

theorem Keyword.not (s1 s2 s3 : Slot) : Keyword.Statement (.not s1 s2 s3) :=
  ⟨(by decide : opcodeOf Opcode.not.keyword = Opcode.not), rfl, rfl⟩

theorem Keyword.shl (s1 s2 s3 : Slot) : Keyword.Statement (.shl s1 s2 s3) :=
  ⟨(by decide : opcodeOf Opcode.shl.keyword = Opcode.shl), rfl, rfl⟩

theorem Keyword.shr (s1 s2 s3 : Slot) : Keyword.Statement (.shr s1 s2 s3) :=
  ⟨(by decide : opcodeOf Opcode.shr.keyword = Opcode.shr), rfl, rfl⟩

theorem Keyword.st (s1 s2 s3 : Slot) : Keyword.Statement (.st s1 s2 s3) :=
  ⟨(by decide : opcodeOf Opcode.st.keyword = Opcode.st), rfl, rfl⟩

theorem Keyword.ld (s1 s2 s3 : Slot) : Keyword.Statement (.ld s1 s2 s3) :=
  ⟨(by decide : opcodeOf Opcode.ld.keyword = Opcode.ld), rfl, rfl⟩

theorem Keyword.wdm (s1 s2 s3 : Slot) : Keyword.Statement (.wdm s1 s2 s3) :=
  ⟨(by decide : opcodeOf Opcode.wdm.keyword = Opcode.wdm), rfl, rfl⟩

theorem Keyword.jmp (s1 s2 s3 : Slot) : Keyword.Statement (.jmp s1 s2 s3) :=
  ⟨(by decide : opcodeOf Opcode.jmp.keyword = Opcode.jmp), rfl, rfl⟩

theorem Keyword.jiz (s1 s2 s3 : Slot) : Keyword.Statement (.jiz s1 s2 s3) :=
  ⟨(by decide : opcodeOf Opcode.jiz.keyword = Opcode.jiz), rfl, rfl⟩

theorem Keyword.jin (s1 s2 s3 : Slot) : Keyword.Statement (.jin s1 s2 s3) :=
  ⟨(by decide : opcodeOf Opcode.jin.keyword = Opcode.jin), rfl, rfl⟩

theorem Keyword.halt (s1 s2 s3 : Slot) : Keyword.Statement (.halt s1 s2 s3) :=
  ⟨(by decide : opcodeOf Opcode.halt.keyword = Opcode.halt), rfl, rfl⟩

end Sys2Proof.Laws
end

