-- ==== Sys2Proof/Laws/Sequencer.lean ====
section
/-! SUPPORT. What each stage can do, said once, and that every stage keeps the configuration and the program. -/

namespace Sys2Proof.Machine

/-! ### Launch premises -/

theorem launch_iff {c : Config} {prog : List Line} : launchRefusal c prog = none ↔
    c.legal = true ∧ (∀ l ∈ prog, ∀ x ∈ l, isAscii x = true) ∧ prog.length ≤ 2 ^ c.w.bits - 1 := by
  simp only [launchRefusal]
  split_ifs with h1 h2 h3
  · simp only [Bool.not_eq_true'] at h1
    simp [h1]
  · refine iff_of_false (by simp) fun h => ?_
    simp only [Bool.not_eq_true', ← Bool.not_eq_true, List.all_eq_true] at h2
    exact h2 h.2.1
  · exact iff_of_false (by simp) fun h => absurd h.2.2 (by omega)
  · refine iff_of_true rfl ⟨by simpa using h1, ?_, by omega⟩
    simpa using h2

theorem launch_length {c : Config} {prog : List Line} (h : launchRefusal c prog = none) :
    prog.length < 2 ^ c.w.bits := by
  have := Nat.two_pow_pos c.w.bits
  have := (launch_iff.mp h).2.2
  omega

/-- Under the launch premise no line index is truncated (10_state.md R26). -/
theorem trunc_lineIndex {c : Config} {prog : List Line} (h : launchRefusal c prog = none) {n : Nat}
    (hn : n ≤ prog.length) : trunc c.w n = BitVec.ofNat 128 n := by
  rw [trunc, Nat.mod_eq_of_lt (Nat.lt_of_le_of_lt hn (launch_length h))]

/-! ### Fetch -/

/-- The scan stops at the first Capturable line, or past the end. -/
theorem scanLines_spec (cmt : List Char) : ∀ (ls : List Line) (i : Nat),
    ∃ k, scanLines cmt ls i = i + k ∧ k ≤ ls.length ∧
      (∀ j l, j < k → ls[j]? = some l → lineClass cmt l ≠ .capturable) ∧
      (∀ l, ls[k]? = some l → lineClass cmt l = .capturable)
  | [], i => ⟨0, rfl, Nat.le_refl 0, by simp, by simp⟩
  | l :: ls, i => by
    by_cases h : lineClass cmt l = .capturable
    · refine ⟨0, by simp [scanLines, h], Nat.zero_le _, by omega, ?_⟩
      simp [h]
    · obtain ⟨k, hk, hle, hlt, hat⟩ := scanLines_spec cmt ls (i + 1)
      refine ⟨k + 1, by simp [scanLines, h, hk]; omega, by simpa using hle, ?_, by simpa using hat⟩
      intro j l' hj hl'
      cases j with
      | zero => simp only [List.getElem?_cons_zero, Option.some.injEq] at hl'; exact hl' ▸ h
      | succ j => exact hlt j l' (by omega) (by simpa using hl')

/-- What Fetch can do (40_pipeline.md R104): capture the first Capturable line at or after `pc`, or halt at the end. -/
theorem fetchStage_cases (s : State) :
    (∃ i l, s.pc.toNat ≤ i ∧ s.prog[i]? = some l ∧ lineClass s.cfg.cmt l = .capturable ∧
      (∀ j l', s.pc.toNat ≤ j → j < i → s.prog[j]? = some l' → lineClass s.cfg.cmt l' ≠ .capturable) ∧
      fetchStage s = { s.setPc (i + 1) with cap := l, cyc := .decode }) ∨
    ((∀ j l', s.pc.toNat ≤ j → s.prog[j]? = some l' → lineClass s.cfg.cmt l' ≠ .capturable) ∧
      fetchStage s = halt (if s.prog.length ≤ s.pc.toNat then s else s.setPc s.prog.length)) := by
  obtain ⟨k, hk, hle, hlt, hat⟩ := scanLines_spec s.cfg.cmt (s.prog.drop s.pc.toNat) s.pc.toNat
  have hskip : ∀ j l', s.pc.toNat ≤ j → j < s.pc.toNat + k → s.prog[j]? = some l' →
      lineClass s.cfg.cmt l' ≠ .capturable := by
    intro j l' h1 h2 h3
    refine hlt (j - s.pc.toNat) l' (by omega) ?_
    rw [List.getElem?_drop, Nat.add_sub_cancel' h1]; exact h3
  cases hl : s.prog[s.pc.toNat + k]? with
  | some l =>
    refine .inl ⟨s.pc.toNat + k, l, by omega, hl, hat l (by rw [List.getElem?_drop]; exact hl), hskip, ?_⟩
    simp [fetchStage, hk, hl]
  | none =>
    have hend : s.prog.length ≤ s.pc.toNat + k := List.getElem?_eq_none_iff.mp hl
    simp only [List.length_drop] at hle
    refine .inr ⟨fun j l' h1 h3 => hskip j l' h1 ?_ h3, ?_⟩
    · have := (List.getElem?_eq_some_iff.mp h3).1
      omega
    · simp only [fetchStage, hk, hl]
      by_cases h : s.prog.length ≤ s.pc.toNat
      · have : k = 0 := by omega
        simp [h, this]
      · have : s.pc.toNat + k = s.prog.length := by omega
        simp [h, this, Nat.ne_of_gt (Nat.lt_of_not_le h)]

/-! ### Decode -/

/-- What Decode can do (40_pipeline.md R105): a Decode error, or a latched instruction. -/
theorem decodeStage_cases (s : State) :
    (parseLine s.cfg.cmt s.cap = none ∧ decodeStage s = decodeError .decode s) ∨
    (∃ src k, parseLine s.cfg.cmt s.cap = some src ∧ resolveAll s src = .error k ∧
      decodeStage s = decodeError k s) ∨
    (∃ src i, parseLine s.cfg.cmt s.cap = some src ∧ resolveAll s src = .ok i ∧
      decodeStage s = { s with ir := i, cyc := .execute }) := by
  cases hp : parseLine s.cfg.cmt s.cap with
  | none => exact .inl ⟨rfl, by simp [decodeStage, hp]⟩
  | some src =>
    cases hr : resolveAll s src with
    | error k => exact .inr (.inl ⟨src, k, rfl, hr, by simp [decodeStage, hp, hr]⟩)
    | ok i => exact .inr (.inr ⟨src, i, rfl, hr, by simp [decodeStage, hp, hr]⟩)

/-- The slots were resolved in order (40_pipeline.md R106). -/
theorem resolveAll_ok {s : State} {src : SourceInstr} {i : Instr} (h : resolveAll s src = .ok i) :
    ∃ s1 s2 s3, resolve s src.a1 = .ok s1 ∧ resolve s src.a2 = .ok s2 ∧ resolve s src.a3 = .ok s3 ∧
      i = src.opc.instr s1 s2 s3 := by
  simp only [resolveAll] at h
  cases h1 : resolve s src.a1 with
  | error k => simp [h1] at h
  | ok s1 =>
    cases h2 : resolve s src.a2 with
    | error k => simp [h1, h2] at h
    | ok s2 =>
      cases h3 : resolve s src.a3 with
      | error k => simp [h1, h2, h3] at h
      | ok s3 => exact ⟨s1, s2, s3, rfl, rfl, rfl, by simpa [h1, h2, h3] using h.symm⟩

/-- Resolution fails only with RegisterRead or MemoryRead (40_pipeline.md R107). -/
theorem resolve_error {s : State} {o : Operand} {k : ErrorKind} (h : resolve s o = .error k) :
    k = .registerRead ∨ k = .memoryRead := by
  cases o with
  | register n =>
    cases hl : s.lookup n <;> simp [resolve, hl] at h
    exact .inl h.symm
  | memAddr a =>
    cases hl : s.memRead a <;> simp [resolve, hl] at h
    exact .inr h.symm
  | _ => simp [resolve] at h

theorem resolveAll_error {s : State} {src : SourceInstr} {k : ErrorKind} (h : resolveAll s src = .error k) :
    k = .registerRead ∨ k = .memoryRead := by
  simp only [resolveAll] at h
  cases h1 : resolve s src.a1 with
  | error k => simp [h1] at h; exact h ▸ resolve_error h1
  | ok s1 =>
    cases h2 : resolve s src.a2 with
    | error k => simp [h1, h2] at h; exact h ▸ resolve_error h2
    | ok s2 =>
      cases h3 : resolve s src.a3 with
      | error k => simp [h1, h2, h3] at h; exact h ▸ resolve_error h3
      | ok s3 => simp [h1, h2, h3] at h

theorem Opcode.instr_opcode (o : Opcode) (a b c : Slot) : (o.instr a b c).opcode = o := by cases o <;> rfl

theorem Opcode.instr_slots (o : Opcode) (a b c : Slot) : (o.instr a b c).slots = (a, b, c) := by cases o <;> rfl

theorem Instr.opcode_instr (i : Instr) : i.opcode.instr i.slots.1 i.slots.2.1 i.slots.2.2 = i := by cases i <;> rfl

/-! ### Execute and the batch -/

/-- What the Execute tick does: the latched instruction's effect, then `CYC`. -/
theorem executeStage_eq {s t : State} (h : exec s.ir s = .next t) : executeStage s = .next (afterExecute t) := by
  simp [executeStage, h]

theorem executeStage_next (s : State) :
    ∃ t, executeStage s = .next (afterExecute t) ∧ exec s.ir s = .next t ∧ Effect s.ir s t := by
  obtain ⟨t, ht, he⟩ := exec_effect s.ir s
  exact ⟨t, executeStage_eq ht, ht, he⟩

theorem afterExecute_kept (s : State) :
    (afterExecute s).cfg = s.cfg ∧ (afterExecute s).prog = s.prog ∧ (afterExecute s).err = s.err ∧
      ((afterExecute s).cyc = .halt ↔ s.cyc = .halt) := by
  by_cases h : s.cyc = .halt <;> simp [afterExecute, h]

theorem fetchStage_kept (s : State) :
    (fetchStage s).cfg = s.cfg ∧ (fetchStage s).prog = s.prog ∧ (fetchStage s).err = s.err ∧
      ((fetchStage s).cyc = .decode ∨ (fetchStage s).cyc = .halt) := by
  rcases fetchStage_cases s with ⟨i, l, -, -, -, -, h⟩ | ⟨-, h⟩
  · simp [h]
  · rw [h]; split_ifs <;> simp

theorem decodeStage_kept (s : State) :
    (decodeStage s).cfg = s.cfg ∧ (decodeStage s).prog = s.prog ∧
      (((decodeStage s).cyc = .execute ∧ (decodeStage s).err = s.err) ∨
        ((decodeStage s).cyc = .halt ∧ ∃ k, (decodeStage s).err = some k)) := by
  rcases decodeStage_cases s with ⟨-, h⟩ | ⟨-, k, -, -, h⟩ | ⟨-, i, -, -, h⟩
  · rw [h]; exact ⟨rfl, rfl, .inr ⟨rfl, _, rfl⟩⟩
  · rw [h]; exact ⟨rfl, rfl, .inr ⟨rfl, _, rfl⟩⟩
  · rw [h]; exact ⟨rfl, rfl, .inl ⟨rfl, rfl⟩⟩

end Sys2Proof.Machine
end

