-- ==== Sys2Proof/Laws/Text.lean ====
section
/-! SUPPORT. Text: characters, trimming, tokens, numerals, the comment marker, register names, classification and cutting
text into lines, each function's small lemmas. -/

namespace Sys2Proof

/-! ### Characters -/

theorem isLetter_iff (c : Char) : isLetter c = true ↔ (65 ≤ c.toNat ∧ c.toNat ≤ 90) ∨ (97 ≤ c.toNat ∧
    c.toNat ≤ 122) := by
  simp [isLetter]

theorem isDigit_iff (c : Char) : isDigit c = true ↔ 48 ≤ c.toNat ∧ c.toNat ≤ 57 := by simp [isDigit]

theorem isSpace_iff (c : Char) : isSpace c = true ↔
    c.toNat = 32 ∨ c.toNat = 9 ∨ c.toNat = 13 ∨ c.toNat = 11 ∨ c.toNat = 12 := by simp [isSpace, or_assoc]

theorem letter_not_space {c : Char} (h : isLetter c = true) : isSpace c = false := by
  rw [← Bool.not_eq_true, isSpace_iff]
  rw [isLetter_iff] at h
  omega

theorem digit_not_space {c : Char} (h : isDigit c = true) : isSpace c = false := by
  rw [← Bool.not_eq_true, isSpace_iff]
  rw [isDigit_iff] at h
  omega

theorem hexDigit_not_space {c : Char} (h : isHexDigit c = true) : isSpace c = false := by
  rw [← Bool.not_eq_true, isSpace_iff]
  simp only [isHexDigit, isDigit, Bool.or_eq_true, Bool.and_eq_true, decide_eq_true_eq] at h
  omega

theorem digit_not_letter {c : Char} (h : isDigit c = true) : isLetter c = false := by
  rw [← Bool.not_eq_true, isLetter_iff]
  rw [isDigit_iff] at h
  omega

theorem toNat_ofNat {n : Nat} (h : n < 128) : (Char.ofNat n).toNat = n := by
  have hv : n.isValidChar := .inl (by omega)
  simp only [Char.ofNat, hv, dif_pos, Char.toNat, Char.ofNatAux]
  rfl

/-! ### Tokens -/

/-- A token: not empty, and no whitespace in it. -/
def isToken (t : List Char) : Prop := t ≠ [] ∧ ∀ c ∈ t, isSpace c = false

theorem splitSpaces_append {t : List Char} (h : ∀ c ∈ t, isSpace c = false) (rest : List Char) :
    splitSpaces (t ++ rest) = (t ++ (splitSpaces rest).1, (splitSpaces rest).2) := by
  induction t with
  | nil => rfl
  | cons c cs ih =>
    have hc := h c List.mem_cons_self
    have ih' := ih fun x hx => h x (List.mem_cons_of_mem _ hx)
    simp [splitSpaces, hc, ih']

theorem splitSpaces_space {c : Char} (h : isSpace c = true) (rest : List Char) :
    splitSpaces (c :: rest) = ([], words rest) := by
  simp [splitSpaces, h, words]

/-- A token followed by the end of the line. -/
theorem words_token {t : List Char} (h : isToken t) : words t = [t] := by
  have := splitSpaces_append h.2 []
  rw [List.append_nil] at this
  simp [words, this, splitSpaces, h.1]

/-- A token followed by a blank. -/
theorem words_token_space {t : List Char} (h : isToken t) {c : Char} (hc : isSpace c = true) (rest : List Char) :
    words (t ++ c :: rest) = t :: words rest := by
  simp [words, splitSpaces_append h.2, splitSpaces_space hc, h.1]

/-- A line that starts and ends with no whitespace is its own trim. -/
theorem trim_of_ends {l : List Char} (hh : ∀ c, l.head? = some c → isSpace c = false)
    (hl : ∀ c, l.getLast? = some c → isSpace c = false) : trim l = l := by
  have h1 : l.dropWhile isSpace = l := by
    cases l with
    | nil => rfl
    | cons c cs => simp [hh c rfl]
  have h2 : l.reverse.dropWhile isSpace = l.reverse := by
    cases hr : l.reverse with
    | nil => rfl
    | cons c cs =>
      have : l.getLast? = some c := by rw [← List.head?_reverse, hr]; rfl
      simp [hl c this]
  rw [trim, h1, h2, List.reverse_reverse]

/-! ### Numerals -/

theorem numeral_append (base : Nat) (value : Char → Nat) (ds : List Char) (d : Char) :
    numeral base value (ds ++ [d]) = numeral base value ds * base + value d := by
  simp [numeral, List.foldl_append]

theorem digitsOf_ne_nil {base fuel n : Nat} : digitsOf base (fuel + 1) n ≠ [] := by
  simp only [digitsOf]
  split_ifs <;> simp

/-- Every digit is below the base. -/
theorem digitsOf_lt {base : Nat} (hb : 0 < base) : ∀ {fuel n d : Nat}, d ∈ digitsOf base fuel n → d < base
  | 0, _, _, h => by simp [digitsOf] at h
  | fuel + 1, n, d, h => by
    simp only [digitsOf] at h
    split_ifs at h with hn
    · simp only [List.mem_singleton] at h; omega
    · rcases List.mem_append.mp h with h | h
      · exact digitsOf_lt hb h
      · simp only [List.mem_singleton] at h
        exact h ▸ Nat.mod_lt _ hb

/-- Reading the digits of a number back gives the number. -/
theorem numeral_digitsOf {base : Nat} (hb : 2 ≤ base) {value : Char → Nat}
    (hv : ∀ d, d < base → value (digitChar d) = d) : ∀ {fuel n : Nat}, n < base ^ fuel →
    numeral base value ((digitsOf base fuel n).map digitChar) = n
  | 0, n, h => by
    have : n = 0 := by simpa using h
    simp [digitsOf, numeral, this]
  | fuel + 1, n, h => by
    simp only [digitsOf]
    split_ifs with hn
    · simp [numeral, hv n hn]
    · have hq : n / base < base ^ fuel := by
        rw [Nat.div_lt_iff_lt_mul (by omega)]
        simpa [Nat.pow_succ] using h
      rw [List.map_append, List.map_cons, List.map_nil, numeral_append, numeral_digitsOf hb hv hq,
        hv _ (Nat.mod_lt _ (by omega)), Nat.mul_comm]
      exact Nat.div_add_mod n base

theorem digitValue_digitChar {d : Nat} (h : d < 10) : digitValue (digitChar d) = d := by
  interval_cases d <;> decide

theorem hexDigitValue_digitChar {d : Nat} (h : d < 16) : hexDigitValue (digitChar d) = d := by
  interval_cases d <;> decide

theorem isDigit_digitChar {d : Nat} (h : d < 10) : isDigit (digitChar d) = true := by
  interval_cases d <;> decide

theorem isHexDigit_digitChar {d : Nat} (h : d < 16) : isHexDigit (digitChar d) = true := by
  interval_cases d <;> decide

/-! ### Case -/

theorem toUpper_toNat (c : Char) : (toUpper c).toNat = if 97 ≤ c.toNat ∧
    c.toNat ≤ 122 then c.toNat - 32 else c.toNat := by
  simp only [toUpper]; split_ifs with h
  · exact toNat_ofNat (by omega)
  · rfl

theorem toLower_toNat (c : Char) : (toLower c).toNat = if 65 ≤ c.toNat ∧
    c.toNat ≤ 90 then c.toNat + 32 else c.toNat := by
  simp only [toLower]; split_ifs with h
  · exact toNat_ofNat (by omega)
  · rfl

/-- A character is its number. -/
theorem char_toNat_inj {a b : Char} (h : a.toNat = b.toNat) : a = b := by
  apply Char.ext; apply UInt32.toNat_inj.mp; exact h

theorem toUpper_toLower (c : Char) : toUpper (toLower c) = toUpper c := by
  apply char_toNat_inj; rw [toUpper_toNat, toLower_toNat, toUpper_toNat]; split_ifs <;> omega

theorem toUpper_toUpper (c : Char) : toUpper (toUpper c) = toUpper c := by
  apply char_toNat_inj; simp only [toUpper_toNat]; split_ifs <;> omega

theorem toLower_toUpper (c : Char) : toLower (toUpper c) = toLower c := by
  apply char_toNat_inj; simp only [toUpper_toNat, toLower_toNat]; split_ifs <;> omega

theorem toLower_toLower (c : Char) : toLower (toLower c) = toLower c := by
  apply char_toNat_inj; simp only [toLower_toNat]; split_ifs <;> omega

/-! ### The comment marker -/

/-- The first character of a legal marker (00_scope.md R5). -/
theorem legalMarker_head {cmt : List Char} (h : legalMarker cmt = true) :
    ∃ c cs, cmt = c :: cs ∧ c ≠ '.' ∧ isDigit c = false ∧ isLetter c = false ∧ isSpace c = false := by
  cases cmt with
  | nil => cases h
  | cons c cs =>
    simp [legalMarker, labelMarker] at h
    refine ⟨c, cs, rfl, of_decide_eq_false h.1.1, h.1.2, ?_, ?_⟩ <;> simp_all

/-- A token that starts with a digit, a letter or the label marker starts no comment. -/
theorem marker_not_prefix {cmt : List Char} (h : legalMarker cmt = true) (c : Char) (t : List Char)
    (hc : isDigit c = true ∨ isLetter c = true ∨ c = '.') : cmt.isPrefixOf (c :: t) = false := by
  obtain ⟨d, ds, rfl, h1, h2, h3, h4⟩ := legalMarker_head h
  simp only [List.isPrefixOf]
  rw [Bool.and_eq_false_iff]; left
  rw [beq_eq_false_iff_ne]
  rintro rfl
  rcases hc with hc | hc | hc <;> simp_all

/-! ### Register names -/

theorem gprOfLetter_some {n : Nat} {l : Char} {i : Fin 26} (h : gprOfLetter n l = some i) : i.val < n ∧
    l.toNat = 97 + i.val := by
  simp only [gprOfLetter] at h
  split_ifs at h with h1 h2
  cases h; exact ⟨h2, by simp; omega⟩

theorem gprOfLetter_ofNat {n : Nat} (i : Fin 26) (h : i.val < n) : gprOfLetter n (Char.ofNat
    (97 + i.val)) = some i := by
  have : (Char.ofNat (97 + i.val)).toNat = 97 + i.val := toNat_ofNat (by omega)
  simp [gprOfLetter, this, h]

/-- A section letter selects a view (10_state.md R23). -/
theorem sectionWidth_isSection {s : Char} {n : Width} (h : sectionWidth s = some n) : n.isSection = true := by
  simp only [sectionWidth] at h
  split_ifs at h <;> cases h <;> rfl

theorem gprLetter_facts (i : Fin 26) : toLower (Char.ofNat (97 + i.val)) = Char.ofNat (97 + i.val) ∧ isLetter
    (Char.ofNat (97 + i.val)) = true := by
  have : (Char.ofNat (97 + i.val)).toNat = 97 + i.val := toNat_ofNat (by omega)
  constructor
  · apply char_toNat_inj; rw [toLower_toNat, if_neg (by omega)]
  · rw [isLetter_iff]; omega

theorem sectionLetter_facts {w : Width} (h : w.isSection = true) : ∃ l, sectionLetter w = [l] ∧
    sectionWidth l = some w ∧ toLower l = l ∧ isLetter l = true := by
  cases w <;> first | (exact absurd h (by decide)) | exact ⟨_, rfl, by decide, by decide, by decide⟩

/-! ### Keywords and tokens -/

theorem keyword_facts (o : Opcode) : isToken o.keyword ∧ opcodeOf o.keyword = o ∧ ∃ d ds, o.keyword = d :: ds ∧
    isLetter d = true := by
  refine ⟨⟨?_, ?_⟩, ?_, ?_⟩
  · cases o <;> decide
  · exact fun c hc => letter_not_space (List.all_eq_true.mp (by cases o <;> decide :
      o.keyword.all isLetter = true) c hc)
  · cases o <;> decide
  · cases o <;> exact ⟨_, _, rfl, by decide⟩

/-- A line that ends with a token ends with no whitespace. -/
theorem getLast_token {t : List Char} (h : isToken t) (pre : List Char) : ∀ c, (pre ++ t).getLast? = some c →
    isSpace c = false := by
  intro c hc
  rw [List.getLast?_append] at hc
  cases hl : t.getLast? with
  | none => exact absurd (List.getLast?_eq_none_iff.mp hl) h.1
  | some d => rw [hl] at hc; simp at hc; subst hc; exact h.2 _ (List.mem_of_getLast? hl)

theorem splitSpaces_nonempty : ∀ (l : List Char), (∀ t ∈ (splitSpaces l).2, t ≠ [])
  | [] => by simp [splitSpaces]
  | c :: cs => by
    have ih := splitSpaces_nonempty cs
    simp only [splitSpaces]
    split_ifs with h1 h2
    · exact ih
    · intro t ht
      rcases List.mem_cons.mp ht with rfl | ht
      · intro e; simp [e] at h2
      · exact ih t ht
    · exact ih

/-- No token is empty (30_encoding.md R76). -/
theorem words_nonempty (l : List Char) : ∀ t ∈ words l, t ≠ [] := by
  intro t ht
  simp only [words] at ht
  split_ifs at ht with h
  · exact splitSpaces_nonempty l t ht
  · rcases List.mem_cons.mp ht with rfl | ht
    · intro e; simp [e] at h
    · exact splitSpaces_nonempty l t ht

/-- A Capturable line has an opcode token (40_pipeline.md R105). -/
theorem words_of_capturable {cmt : List Char} {l : Line} (h : lineClass cmt l = .capturable) : words
    (trim l) ≠ [] := by
  simp only [lineClass] at h
  split_ifs at h with h1 h2
  have hne : trim l ≠ [] := by simpa using h1
  intro hw
  have : ∀ m : List Char, words m = [] → ∀ c ∈ m, isSpace c = true := by
    intro m
    induction m with
    | nil => simp
    | cons c cs ih =>
      intro hm
      simp only [words, splitSpaces] at hm
      by_cases hc : isSpace c = true
      · simp [hc] at hm
        intro d hd
        rcases List.mem_cons.mp hd with rfl | hd
        · exact hc
        · refine ih ?_ d hd
          simp only [words]
          by_cases he : (splitSpaces cs).1 = []
          · simp [he] at hm ⊢; exact hm
          · simp [he] at hm
      · simp [hc] at hm
  have hall := this _ hw
  have hr : (trim l).reverse = (l.dropWhile isSpace).reverse.dropWhile isSpace := by simp [trim]
  cases hx : (trim l).reverse with
  | nil => exact hne (by simpa using hx)
  | cons d ds =>
    rw [hr] at hx
    have hd : ¬ isSpace d = true := by
      have := List.head?_dropWhile_not isSpace (l.dropWhile isSpace).reverse
      rw [hx] at this; simpa using this
    apply hd
    apply hall
    rw [← List.mem_reverse, hr, hx]; exact List.mem_cons_self

/-- Only an empty or a comment token classifies as no operand (30_encoding.md R81). -/
theorem classify_ne_none {cmt tok : List Char} (h1 : tok ≠ []) (h2 : cmt.isPrefixOf tok = false) :
    classify cmt tok ≠ .none := by
  rw [classify, if_neg (by simpa using h1), if_neg (by simp [h2])]
  split_ifs
  · simp
  · split
    · simp
    · split
      · simp
      · split <;> simp

theorem classify_symbol_ok {cmt tok n : List Char} (h : classify cmt tok = .symbol n) : n ≠ [] ∧
    n.all isLetter = true := by
  simp only [classify] at h
  split_ifs at h
  split at h
  · cases h
  · split at h
    · cases h
    · split at h
      · rename_i hs
        cases h
        cases tok with
        | nil => simp [symbolName] at hs
        | cons c r =>
          simp only [symbolName] at hs
          split_ifs at hs with hq
          cases hs
          simp only [Bool.and_eq_true] at hq
          exact ⟨by simpa using hq.1.2, hq.2⟩
      · cases h

/-- The operand slots of a line are filled in order. -/
theorem classify_getD_none {cmt : List Char} {args : List (List Char)} (h : ∀ t ∈ args, t ≠ [] ∧
    cmt.isPrefixOf t = false) (k : Nat) :
    classify cmt (args.getD k []) = .none ↔ args.length ≤ k := by
  by_cases hk : k < args.length
  · have hm : args.getD k [] ∈ args := by
      rw [List.getD_eq_getElem _ _ hk]; exact List.getElem_mem hk
    exact iff_of_false (classify_ne_none (h _ hm).1 (h _ hm).2) (by omega)
  · refine iff_of_true ?_ (by omega)
    rw [List.getD_eq_default _ _ (by omega)]; simp [classify]

/-! ### Cutting text into lines -/

/-- A line holds characters of the text and no line feed (30_encoding.md R71). -/
theorem cutLines_mem : ∀ (t : List Char) l c, l ∈ cutLines t → c ∈ l → c ∈ t ∧ c.toNat ≠ 10
  | [], l, c, h, _ => by simp [cutLines] at h
  | d :: ds, l, c, h, hc => by
    simp only [cutLines] at h
    split_ifs at h with h10
    · rcases List.mem_cons.mp h with rfl | h
      · cases hc
      · have := cutLines_mem ds l c h hc; exact ⟨List.mem_cons_of_mem _ this.1, this.2⟩
    · cases hcl : cutLines ds with
      | nil => rw [hcl] at h; simp at h; subst h; simp at hc; subst hc; exact ⟨List.mem_cons_self, h10⟩
      | cons m ms =>
        rw [hcl] at h; simp at h
        rcases h with rfl | h
        · rcases List.mem_cons.mp hc with rfl | hc
          · exact ⟨List.mem_cons_self, h10⟩
          · have := cutLines_mem ds m c (by rw [hcl]; exact List.mem_cons_self) hc
            exact ⟨List.mem_cons_of_mem _ this.1, this.2⟩
        · have := cutLines_mem ds l c (by rw [hcl]; exact List.mem_cons_of_mem _ h) hc
          exact ⟨List.mem_cons_of_mem _ this.1, this.2⟩

/-- Every character but a line feed stands in some line. -/
theorem cutLines_has : ∀ (t : List Char) c, c ∈ t → c.toNat ≠ 10 → ∃ l ∈ cutLines t, c ∈ l
  | d :: ds, c, h, h10 => by
    simp only [cutLines]
    rcases List.mem_cons.mp h with rfl | h
    · rw [if_neg h10]
      cases cutLines ds with
      | nil => exact ⟨[c], by simp, by simp⟩
      | cons m ms => exact ⟨c :: m, by simp, by simp⟩
    · obtain ⟨l, hl, hc⟩ := cutLines_has ds c h h10
      split_ifs
      · exact ⟨l, List.mem_cons_of_mem _ hl, hc⟩
      · cases hcl : cutLines ds with
        | nil => rw [hcl] at hl; cases hl
        | cons m ms =>
          rw [hcl] at hl
          rcases List.mem_cons.mp hl with rfl | hl
          · exact ⟨d :: l, by simp, by simp [hc]⟩
          · exact ⟨l, by simp [hl], hc⟩

end Sys2Proof
end

