-- ==== Sys2Proof/Laws/Step.lean ====
section
/-! SUPPORT. The step, the host's events, and the pieces of the invariant. -/

namespace Sys2Proof.Machine

/-- Under the launch premise a step is a tick (70_reset_and_hazards.md R218). -/
theorem step_launched {s : State} (h : launchRefusal s.cfg s.prog = none) : step s = tick s := by
  simp [step, launchedTick, h]

/-- A whole cycle answers a next state and keeps the configuration and the program. -/
theorem runCycle_kept (s : State) : ∃ t, runCycle s = .next t ∧ t.cfg = s.cfg ∧ t.prog = s.prog := by
  have hf := fetchStage_kept s
  have hd := decodeStage_kept (fetchStage s)
  simp only [runCycle]
  split_ifs
  · exact ⟨_, rfl, hf.1, hf.2.1⟩
  · exact ⟨_, rfl, hd.1.trans hf.1, hd.2.1.trans hf.2.1⟩
  · obtain ⟨t, ht, -, he⟩ := executeStage_next (decodeStage (fetchStage s))
    have := afterExecute_kept t
    exact ⟨_, ht, by rw [this.1, he.frame.1, hd.1, hf.1], by rw [this.2.1, he.frame.2.1, hd.2.1, hf.2.1]⟩

/-- A batch answers a next state and keeps the configuration and the program. -/
theorem runBatch_kept : ∀ n (s : State), ∃ t, runBatch n s = .next t ∧ t.cfg = s.cfg ∧ t.prog = s.prog
  | 0, s => ⟨_, rfl, rfl, rfl⟩
  | n+1, s => by
    obtain ⟨t, ht, h1, h2⟩ := runCycle_kept s
    obtain ⟨u, hu, h3, h4⟩ := runBatch_kept n t
    simp only [runBatch, ht]
    split_ifs
    · exact ⟨_, rfl, h1, h2⟩
    · exact ⟨u, hu, h3.trans h1, h4.trans h2⟩

/-- Runs compose. -/
theorem run_add (M : Host.Core) : ∀ m n (s t : M.State), M.run m s = .next t → M.run (m+n) s = M.run n t
  | 0, n, s, t, h => by cases h; simp
  | m+1, n, s, t, h => by
    rw [show m+1+n = (m+n)+1 by omega]
    simp only [Host.Core.run] at h ⊢
    cases hs : M.step s with
    | next u => simp only [hs] at h ⊢; exact run_add M m n u t h
    | fault f => simp [hs] at h
    | refused r => simp [hs] at h

/-- Fetch does not look at `CYC`. -/
theorem fetchStage_cyc (s : State) (c : Cycle) : fetchStage { s with cyc := c } = fetchStage s := by
  simp only [fetchStage]; split
  · split_ifs <;> rfl
  · rfl

/-! ### The host's events -/

theorem hostEvent_tick (s : State) : hostEvent .tick s = launchedTick s := rfl

theorem hostEvent_load (text : List (BitVec 8)) (s : State) : hostEvent (.load text) s =
    match launchRefusal s.cfg (cutLines (textOf text)) with
    | some r => .refused r
    | none => .next (loadLines (cutLines (textOf text)) s) := rfl

theorem hostEvent_reset (c : Config) (s : State) : hostEvent (.reset c) s =
    match launchRefusal c [] with
    | some r => .refused r
    | none => .next { State.resetWith c with draws := s.draws } := rfl

theorem textOf_toNat (b : BitVec 8) : (Char.ofNat b.toNat).toNat = b.toNat := by
  have h : b.toNat < 256 := b.isLt
  have hv : b.toNat.isValidChar := .inl (by omega)
  simp only [Char.ofNat, hv, dif_pos, Char.toNat, Char.ofNatAux]; rfl

/-- The text is ASCII exactly when its bytes are below 128. -/
theorem cutLines_ascii (text : List (BitVec 8)) :
    (cutLines (textOf text)).all (fun l => l.all isAscii) = true ↔ ∀ b ∈ text, b.toNat < 128 := by
  simp only [List.all_eq_true]
  constructor
  · intro h b hb
    by_contra hn
    obtain ⟨l, hl, hc⟩ := cutLines_has (textOf text) (Char.ofNat b.toNat) (List.mem_map.mpr ⟨b, hb, rfl⟩)
      (by rw [textOf_toNat]; omega)
    have := h l hl _ hc
    simp [isAscii, textOf_toNat] at this; omega
  · intro h l hl c hc
    obtain ⟨b, hb, rfl⟩ := List.mem_map.mp (cutLines_mem _ l c hl hc).1
    simp [isAscii, textOf_toNat]; exact h b hb

/-! ### The invariant -/

/-- A state with the same configuration and program keeps the invariant when its parts do. -/
theorem State.Inv.build {s t : State} (h : State.Inv s) (h1 : t.cfg = s.cfg) (h2 : t.prog = s.prog)
    (hg : ∀ i : Fin 26, Config.fitsWord s.cfg t.gpr[i]) (ha : ∀ i : Fin 26, s.cfg.ngpr ≤ i.val → t.gpr[i] = 0)
    (hp : Config.fitsWord s.cfg t.pc) (hm : Config.fitsWord s.cfg t.mar) (hd : Config.fitsWord s.cfg t.mdr)
    (hw : Memory.wf t.mem = true) (hf : ∀ p ∈ t.mem, p.1 < s.cfg.memcap ∧ Config.fitsWord s.cfg p.2)
    (hc : t.cyc = .decode → lineClass s.cfg.cmt t.cap = .capturable) (hi : t.cyc = .execute →
        t.ir.wellFormed s.cfg = true)
    (he : t.err ≠ none → t.cyc = .halt) (hx : ∀ p ∈ t.pixels, p.x.toNat < s.cfg.dw ∧ p.y.toNat < s.cfg.dh) :
        State.Inv t := by
  constructor <;> (try simp only [h1, h2]) <;> first | assumption | exact h.launch | exact h.lines

/-- A state that differs in the latches and `pc` only. -/
theorem State.Inv.latch {s t : State} (h : State.Inv s) (h1 : t.cfg = s.cfg) (h2 : t.prog = s.prog)
    (hg : t.gpr = s.gpr) (hp : Config.fitsWord s.cfg t.pc) (hm : t.mar = s.mar) (hd : t.mdr = s.mdr) (hw :
        t.mem = s.mem) (hx : t.pixels = s.pixels)
    (hc : t.cyc = .decode → lineClass s.cfg.cmt t.cap = .capturable) (hi : t.cyc = .execute →
        t.ir.wellFormed s.cfg = true)
    (he : t.err ≠ none → t.cyc = .halt)  : State.Inv t :=
  State.Inv.build h h1 h2 (by rw [hg]; exact h.gprFits) (by rw [hg]; exact h.gprAbsent) hp (by rw [hm]; exact
      h.marFits) (by rw [hd]; exact h.mdrFits)
    (by rw [hw]; exact h.memWf) (by rw [hw]; exact h.memFits) hc hi he (by rw [hx]; exact h.pixelsIn)

/-- No error before Halt (60_exceptions.md R190). -/
theorem State.Inv.err_none {s : State} (h : State.Inv s) (hc : s.cyc ≠ .halt) : s.err = none := by
  by_contra hn; exact hc (h.errHalts hn)

/-- What a register write leaves of the invariant (10_state.md R25). -/
theorem writeReg_data {s : State} (h : State.Inv s) {r : RegRef} (hr : r.ok s.cfg = true) (v : Word) :
   (∀ i : Fin 26, Config.fitsWord s.cfg (s.writeReg r v).gpr[i]) ∧ (∀ i : Fin 26, s.cfg.ngpr ≤ i.val →
       (s.writeReg r v).gpr[i] = 0) ∧
    Config.fitsWord s.cfg (s.writeReg r v).pc ∧ Config.fitsWord s.cfg (s.writeReg r v).mar ∧ Config.fitsWord s.cfg
        (s.writeReg r v).mdr := by
  obtain ⟨reg, w⟩ := r
  cases reg with
  | gpr j =>
    have hb : w.bits ≤ s.cfg.w.bits := by
      simp [RegRef.ok] at hr; rcases hr.2 with h | h; rw [h]; exact h.2
    have hj : j.val < s.cfg.ngpr := by simp [RegRef.ok] at hr; exact hr.1
    have key : ∀ i : Fin 26, (s.writeReg ⟨.gpr j, w⟩ v).gpr[i] = if i = j then mergeLow w
        (s.gpr[j]) v else s.gpr[i] := by
      intro i
      have e : (s.writeReg ⟨.gpr j, w⟩ v).gpr[i] = (s.writeReg ⟨.gpr j, w⟩ v).cell (.gpr i) := rfl
      rw [e]
      by_cases hij : i = j
      · subst hij; rw [if_pos rfl]; exact cell_writeReg_same s ⟨.gpr i, w⟩ v
      · rw [if_neg hij, cell_writeReg_other _ _ _ _ (by simpa using hij)]; rfl
    refine ⟨fun i => ?_, fun i hi => ?_, h.pcFits, h.marFits, h.mdrFits⟩
    · rw [key]; split_ifs
      · exact mergeLow_lt hb _ (h.gprFits j)
      · exact h.gprFits i
    · rw [key, if_neg (by rintro rfl; omega)]; exact h.gprAbsent i hi
  | pc =>
    have hb : w = s.cfg.w := by simpa [RegRef.ok] using hr
    exact ⟨h.gprFits, h.gprAbsent, mergeLow_lt (by rw [hb]) _ h.pcFits, h.marFits, h.mdrFits⟩
  | mar =>
    have hb : w = s.cfg.w := by simpa [RegRef.ok] using hr
    exact ⟨h.gprFits, h.gprAbsent, h.pcFits, mergeLow_lt (by rw [hb]) _ h.marFits, h.mdrFits⟩
  | mdr =>
    have hb : w = s.cfg.w := by simpa [RegRef.ok] using hr
    exact ⟨h.gprFits, h.gprAbsent, h.pcFits, h.marFits, mergeLow_lt (by rw [hb]) _ h.mdrFits⟩
  | _ => exact ⟨h.gprFits, h.gprAbsent, h.pcFits, h.marFits, h.mdrFits⟩

/-- A slot of a well-formed instruction is one Decode can leave. -/
theorem wellFormed_slot {i : Instr} {c : Config} (h : i.wellFormed c = true) {x : Slot} (hx : Instr.hasSlot i x) :
    x.ok c = true := by
  simp only [Instr.wellFormed, Bool.and_eq_true] at h
  rcases hx with rfl | rfl | rfl
  · exact h.1.1.2
  · exact h.1.2
  · exact h.2

end Sys2Proof.Machine
end

