-- ==== Sys2Proof/Tests/Slice0.lean ====
section
/-! SUPPORT. The model's own tests. Expected results are taken from the spec's vectors (95_test_vectors.md, named by their
ids), or counted by
    hand from the cited rule. The `test_witness_` theorems show that the hypotheses of the statement they
are named after can be met, each clause at a boundary value. -/

namespace Sys2Proof.Tests
open Sys2Proof Sys2Proof.Machine

/-! ### Helpers -/

/-- The machine set up at REF16, with the given `ga`, `gb`, `gc`. -/
def given (a b c : Word) : State :=
  { setupStep State.reset with gpr := (((Vector.replicate 26 0).set 0 a).set 1 b).set 2 c }

/-- One step over a short text: an AutoStep batch, so up to four whole cycles (40_pipeline.md R113). -/
def after (text : List String) (s : State) (p : State → Bool) : Bool :=
  match step (autoOn (loadLines (text.map String.toList) s)) with
  | .next t => p t
  | .fault _ => false
  | .refused _ => false

/-- The outcome is a next state with a property. -/
def nextAnd (o : Host.Outcome State Fault Refusal) (p : State → Bool) : Bool :=
  match o with
  | .next t => p t
  | .fault _ => false
  | .refused _ => false

def flags (t : State) : List Bool := [t.fz, t.fn, t.fc, t.fo]

def ga (t : State) : Word := t.cell (.gpr 0)
def gb (t : State) : Word := t.cell (.gpr 1)
def gc (t : State) : Word := t.cell (.gpr 2)

/-- Slots at REF16. -/
def regA (v : Word) : Slot := .register ⟨.gpr 0, .w16⟩ ⟨.w16, v⟩
def regB (v : Word) : Slot := .register ⟨.gpr 1, .w16⟩ ⟨.w16, v⟩
def imm (v : Word) : Slot := .immediate ⟨.w16, v⟩
def cellAt (a : Nat) (v : Word) : Slot := .memAddr a ⟨.w16, v⟩

/-! ### WellFormed: one ill-formed term for each check (00_scope.md R5; 10_state.md R22, R23; 40_pipeline.md R106) -/

theorem test_legal_ref16 : Config.ref16.legal = true := by decide
theorem test_legal_width : Config.legal { Config.ref16 with w := .w1 } = false := by decide
theorem test_legal_ngpr : Config.legal { Config.ref16 with ngpr := 0 } = false ∧
    Config.legal { Config.ref16 with ngpr := 27 } = false := by decide
theorem test_legal_memcap : Config.legal { Config.ref16 with memcap := 0 } = false ∧
    Config.legal { Config.ref16 with memcap := 2 ^ 64 + 1 } = false := by decide
theorem test_legal_display : Config.legal { Config.ref16 with dw := 0 } = false ∧
    Config.legal { Config.ref16 with dw := 257 } = false ∧ Config.legal { Config.ref16 with dh := 0 } = false ∧
    Config.legal { Config.ref16 with dh := 257 } = false := by decide
theorem test_legal_batch : Config.legal { Config.ref16 with k := 0 } = false := by decide
theorem test_legal_marker : legalMarker [] = false ∧ legalMarker ['.', ';'] = false ∧ legalMarker ['1'] = false ∧
    legalMarker [';', 'a'] = false ∧ legalMarker [';', ' '] = false ∧ legalMarker ['\u00a7'] = false ∧
    legalMarker ['/', '/'] = true := by decide
theorem test_ref_refused : RegRef.ok Config.ref16 ⟨.pc, .w8⟩ = false ∧ RegRef.ok Config.ref16 ⟨.mar, .w32⟩ = false ∧
    RegRef.ok Config.ref16 ⟨.fz, .w16⟩ = false ∧ RegRef.ok Config.ref16 ⟨.gpr 4, .w16⟩ = false ∧
    RegRef.ok Config.ref16 ⟨.gpr 0, .w32⟩ = false ∧ RegRef.ok Config.ref16 ⟨.gpr 0, .w1⟩ = false := by decide
theorem test_slot_refused : Slot.ok Config.ref16 (.register ⟨.gpr 0, .w16⟩ ⟨.w8, 0⟩) = false ∧
    Slot.ok Config.ref16 (.register ⟨.gpr 0, .w8⟩ ⟨.w8, 256⟩) = false ∧
    Slot.ok Config.ref16 (.register ⟨.gpr 9, .w16⟩ ⟨.w16, 0⟩) = false ∧
    Slot.ok Config.ref16 (.immediate ⟨.w8, 0⟩) = false ∧ Slot.ok Config.ref16 (imm 65536) = false ∧
    Slot.ok Config.ref16 (cellAt 256 0) = false ∧ Slot.ok Config.ref16 (.symbol []) = false ∧
    Slot.ok Config.ref16 (.symbol ['a', '1']) = false := by decide
theorem test_order_refused : Instr.wellFormed Config.ref16 (.mov .none (imm 1) .none) = false ∧
    Instr.wellFormed Config.ref16 (.mov (regA 1) .none (imm 1)) = false := by decide
theorem test_wellFormed_slots : Instr.wellFormed Config.ref16 (.mov (imm 65536) .none .none) = false ∧
    Instr.wellFormed Config.ref16 (.mov (imm 1) (imm 65536) .none) = false ∧
    Instr.wellFormed Config.ref16 (.mov (imm 1) (imm 1) (imm 65536)) = false ∧
    Instr.wellFormed Config.ref16 (.mov (imm 1) (imm 1) (imm 65535)) = true := by decide
theorem test_shape_refused : Instr.shapeOk (.mov (imm 1) (imm 1) .none) = false ∧
    Instr.shapeOk (.add (cellAt 1 0) (imm 1) .none) = false ∧ Instr.shapeOk (.shl (regA 0)
        (cellAt 1 0) .none) = false ∧
    Instr.shapeOk (.ld (regA 0) (imm 1) .none) = false ∧ Instr.shapeOk (.wdm (imm 1) (imm 1) .none) = false ∧
    Instr.shapeOk (.jmp (regA 0) .none .none) = false := by decide

/-! ### Decoding: the lines of P1 to P5 and of the vectors (30_encoding.md R76 to R82) -/

theorem test_decode_none : parseLine [';'] "FOO ga".toList =
    some ⟨.unrecognised, .register ['g', 'a'], .none, .none⟩ := by decide
theorem test_decode_mov : parseLine [';'] "MOV 0x10 gb".toList =
    some ⟨.mov, .memAddr 16, .register ['g', 'b'], .none⟩ := by decide
theorem test_decode_add : parseLine [';'] "ADD gbb gab".toList =
    some ⟨.add, .register ['g', 'b', 'b'], .register ['g', 'a', 'b'], .none⟩ := by decide
theorem test_decode_sub : parseLine [';'] "SUB gb 4 gd    ; compare i with 4".toList =
    some ⟨.sub, .register ['g', 'b'], .immediate 4, .register ['g', 'd']⟩ := by decide
theorem test_decode_mul : parseLine [';'] "MUL gb gb gc   ; gc = i*i".toList =
    some ⟨.mul, .register ['g', 'b'], .register ['g', 'b'], .register ['g', 'c']⟩ := by decide
theorem test_decode_div : parseLine [';'] "DIV ga 0 gc".toList =
    some ⟨.div, .register ['g', 'a'], .immediate 0, .register ['g', 'c']⟩ := by decide
theorem test_decode_and : parseLine [';'] "AND ga 255".toList =
    some ⟨.and, .register ['g', 'a'], .immediate 255, .none⟩ := by decide
theorem test_decode_or : parseLine [';'] "OR ga 1".toList =
    some ⟨.or, .register ['g', 'a'], .immediate 1, .none⟩ := by decide
theorem test_decode_xor : parseLine [';'] "XOR ga 65535 gb".toList =
    some ⟨.xor, .register ['g', 'a'], .immediate 65535, .register ['g', 'b']⟩ := by decide
theorem test_decode_not : parseLine [';'] "NOT gbb".toList =
    some ⟨.not, .register ['g', 'b', 'b'], .none, .none⟩ := by decide
theorem test_decode_shl : parseLine [';'] "SHL ga 0x10".toList =
    some ⟨.shl, .register ['g', 'a'], .memAddr 16, .none⟩ := by decide
theorem test_decode_shr : parseLine [';'] "SHR ga 8".toList =
    some ⟨.shr, .register ['g', 'a'], .immediate 8, .none⟩ := by decide
theorem test_decode_st : parseLine [';'] "ST ga gc".toList =
    some ⟨.st, .register ['g', 'a'], .register ['g', 'c'], .none⟩ := by decide
theorem test_decode_ld : parseLine [';'] "LD pc ga".toList =
    some ⟨.ld, .register ['p', 'c'], .register ['g', 'a'], .none⟩ := by decide
theorem test_decode_wdm : parseLine [';'] "WDM 4660 22136 772".toList =
    some ⟨.wdm, .immediate 4660, .immediate 22136, .immediate 772⟩ := by decide
theorem test_decode_jmp : parseLine [';'] "JMP .loop".toList =
    some ⟨.jmp, .symbol ['l', 'o', 'o', 'p'], .none, .none⟩ := by decide
theorem test_decode_jiz : parseLine [';'] "JIZ .done".toList =
    some ⟨.jiz, .symbol ['d', 'o', 'n', 'e'], .none, .none⟩ := by decide
theorem test_decode_jin : parseLine [';'] "JIN .next".toList =
    some ⟨.jin, .symbol ['n', 'e', 'x', 't'], .none, .none⟩ := by decide
theorem test_decode_halt : parseLine [';'] "halt".toList = some ⟨.halt, .none, .none, .none⟩ := by decide

/-- The numbers of 30_encoding.md R79 and the first number that names no opcode. -/
theorem test_decode_table : (List.range 20).map (decodeTableWord 8) =
    [some (.unrecognised .none .none .none), some (.mov .none .none .none), some (.add .none .none .none),
      some (.sub .none .none .none), some (.mul .none .none .none), some (.div .none .none .none),
      some (.and .none .none .none), some (.or .none .none .none), some (.xor .none .none .none),
      some (.not .none .none .none)] ++
    [some (.shl .none .none .none), some (.shr .none .none .none), some (.st .none .none .none),
      some (.ld .none .none .none), some (.wdm .none .none .none), some (.jmp .none .none .none),
      some (.jiz .none .none .none), some (.jin .none .none .none), some (.halt .none .none .none), none] := by decide

/-- The classifier table of 95_test_vectors.md section 8. -/
theorem test_classify_table :
    ["", ";x", "GA", "0xff", "0x", "0X2A", "0x2G", "007", "-5", "5;", "x5", "g0"].map
        (classify [';'] ∘ String.toList) =
    [.none, .none, .register ['g', 'a'], .memAddr 255, .malformed, .malformed, .malformed, .immediate 7, .malformed,
      .malformed, .malformed, .malformed] := by decide
theorem test_classify_limits :
    classify [';'] "340282366920938463463374607431768211455".toList = .immediate (2 ^ 128 - 1) ∧
    classify [';'] "340282366920938463463374607431768211456".toList = .malformed ∧
    classify [';'] "0xFFFFFFFFFFFFFFFFFFFFFFFFFFFFFFFF".toList = .memAddr (2 ^ 128 - 1) ∧
    classify [';'] ".".toList = .malformed ∧ classify [';'] ".a1".toList = .malformed := by decide
/-- T1 to T6: the comment cut and the fifth token. -/
theorem test_tokens : parseLine [';'] "ADD ga ;1 gb".toList = some ⟨.add, .register ['g', 'a'], .none, .none⟩ ∧
    parseLine [';'] "ADD ga 1 gb gc".toList = some ⟨.add, .register ['g', 'a'], .immediate 1, .register ['g', 'b']⟩ ∧
    parseLine [';'] "ADD ga 1;".toList = some ⟨.add, .register ['g', 'a'], .malformed, .none⟩ := by decide
/-- F2 to F7: line classes. -/
theorem test_line_classes : ["; a", "  ", ".l", ".loop1", ". loop", ".abcdefghijklmnopq", ".loop ; note"].map
    (lineClass [';'] ∘ String.toList) =
    [.comment, .blank, .label ['l'], .capturable, .capturable, .capturable, .capturable] := by decide
/-- A line feed at the very end starts no further line (30_encoding.md R71). -/
theorem test_cut_lines : cutLines "A\n\nB\n".toList = [['A'], [], ['B']] ∧ cutLines [] = [] ∧
    cutLines ['\n'] = [[]] := by decide

theorem test_encode : encode Config.ref16 (.add (.register ⟨.gpr 0, .w8⟩ ⟨.w8, 1⟩) (imm 65535) (cellAt 255 7)) =
    "ADD gab 65535 0xFF".toList ∧
    encode Config.ref16 (.jmp (.symbol ['l']) .malformed .none) = "JMP .l 0x".toList := by decide

/-! ### The interface -/

theorem test_reset_memory : Memory.wf State.reset.mem = true := by decide
theorem test_word_runs_first : nextAnd (step (State.reset.withFetchWord 8 18))
      (fun t => t.cyc == .halt && t.err == none && t.pc == 1) = true ∧
    nextAnd (step (State.reset.withFetchWord 8 0)) (fun t => t.cyc == .halt && t.err == some .execute && t.pc == 1) =
      true := by decide

/-! ### The instructions -/

theorem test_mov_M1 : after ["MOV gab 300"] (given 0xAB00 0 0) (fun t => ga t == 0xAB2C) = true := by decide
theorem test_mov_M3 : after ["MOV 0x10 0x11"] { given 0 0 0 with mem := [(17, 0xBEEF)] }
    (fun t => t.mem == [(16, 0xBEEF), (17, 0xBEEF)]) = true := by decide
theorem test_add_A3 : after ["ADD ga gb"] (given 0x8000 0x8000 0)
    (fun t => ga t == 0 && flags t == [true, false, true, true] && t.pc == 1 && t.err == none) = true := by decide
theorem test_add_A11 : after ["ADD ga gb gcb"] (given 0x01F0 0x0020 0xAAAA)
    (fun t => ga t == 0x01F0 && gc t == 0xAA10 && flags t == [false, false, true, false]) = true := by decide
theorem test_sub_B2 : after ["SUB ga gb"] (given 3 5 0)
    (fun t => ga t == 0xFFFE && flags t == [false, true, true, false]) = true := by decide
theorem test_sub_B3 : after ["SUB ga gb"] (given 0x8000 1 0)
    (fun t => ga t == 0x7FFF && flags t == [false, false, false, true]) = true := by decide
theorem test_mul_C3 : after ["MUL ga gb"] (given 300 300 0)
    (fun t => ga t == 0x5F90 && flags t == [false, false, false, false]) = true := by decide
theorem test_mul_C5 : after ["MUL ga gb"] (given 0x4000 2 0)
    (fun t => ga t == 0x8000 && flags t == [false, true, false, false]) = true := by decide
theorem test_div_D9 : after ["DIV ga gb gc"] (given 100 7 0) (fun t => ga t == 100 && gc t == 14) = true := by decide
theorem test_div_D8 : after ["DIV gab 256"] (given 0x1207 0 0) (fun t => ga t == 0x1207 && t.err == some .execute) =
    true := by decide
theorem test_and_E2 : after ["AND ga 0"] { given 0x0FF0 0 0 with fc := true, fo := true }
    (fun t => ga t == 0 && flags t == [true, false, false, false]) = true := by decide
theorem test_or_E3 : after ["OR ga 1"] (given 0x8000 0 0)
    (fun t => ga t == 0x8001 && flags t == [false, true, false, false]) = true := by decide
theorem test_xor_E7 : after ["XOR ga 65535 gb"] (given 0x00FF 0 0)
    (fun t => gb t == 0xFF00 && ga t == 0x00FF && flags t == [false, true, false, false]) = true := by decide
theorem test_not_E11 : after ["NOT gab"] (given 0x12F0 0 0)
    (fun t => ga t == 0x120F && flags t == [false, false, false, false]) = true := by decide
theorem test_not_E12 : after ["NOT ga gb"] (given 0x0F0F 1 0) (fun t => gb t == 0xF0F0 && ga t == 0x0F0F) = true := by
  decide
theorem test_shl_H16 : after ["SHL gab 9"] (given 0x1281 0 0)
    (fun t => ga t == 0x1202 && flags t == [false, false, false, false]) = true := by decide
theorem test_shl_H14 : after ["SHL ga 0x10"] (given 0x00FF 0 0) (fun t => ga t == 0x00FF && t.err == some .execute) =
    true := by decide
theorem test_shr_H17 : after ["SHR ga 4 gbb"] (given 0x1281 0xFFFF 0)
    (fun t => gb t == 0xFF08 && flags t == [false, false, false, false]) = true := by decide
theorem test_shr_H12 : after ["SHR ga 31"] (given 0xFFFF 0 0) (fun t => ga t == 1) = true := by decide
theorem test_ld_L5 : after ["LD gab gb"] { given 0xFFFF 32 0 with mem := [(32, 0x1234)] } (fun t => ga t == 0xFF34) =
    true := by decide
theorem test_ld_L4 : after ["LD ga gb"] (given 5 256 0) (fun t => ga t == 5 && t.err == some .memoryRead) = true := by
  decide
theorem test_st_L11 : after ["ST ga gbb"] (given 1 0xBEEF 0) (fun t => t.mem == [(1, 0x00EF)]) = true := by decide
theorem test_st_L10 : after ["ST ga gb"] (given 0x100 1 0) (fun t => t.mem == [] && t.err == some .memoryWrite) =
    true := by decide
theorem test_wdm_S5 : after ["WDM 4660 22136 772"] (given 0 0 0)
    (fun t => t.pixels == [⟨3, 4, 0x12, 0x34, 0x56, 0x78⟩] && t.pc == 1) = true := by decide
theorem test_wdm_W2 : after ["WDM ga gb gc"] (given 0 0 0x4000) (fun t => t.pixels == [] && t.err == some .display) =
    true := by decide
theorem test_jmp_J6 : after ["JMP .x", ".x", "MOV ga 1", "HALT", ".x", "MOV gb 2"] (given 0 0 0)
    (fun t => ga t == 0 && gb t == 2 && t.pc == 6 && t.err == none) = true := by decide
theorem test_jmp_J7 : after ["JMP .Loop", ".loop"] (given 0 0 0) (fun t => t.err == some .execute) = true := by decide
theorem test_jiz_J8 : after ["JIZ .t", "MOV ga 1", ".t", "MOV gb 2"] { given 0 0 0 with fz := true }
    (fun t => ga t == 0 && gb t == 2 && t.pc == 4 && t.fz) = true := by decide
theorem test_jiz_J10 : after ["JIZ .zz", "MOV ga 1"] (given 0 0 0) (fun t => ga t == 1 && t.err == none) = true := by
  decide
theorem test_jin_J13 : after ["JIN .t", "MOV ga 1", ".t", "MOV gb 2"] { given 0 0 0 with fn := true }
    (fun t => ga t == 0 && gb t == 2 && t.pc == 4) = true := by decide
theorem test_jin_J14 : after ["JIN .t", "MOV ga 1", ".t", "MOV gb 2"] (given 0 0 0)
    (fun t => ga t == 1 && gb t == 2 && t.pc == 4) = true := by decide
theorem test_halt_J17 : after ["HALT 5 .x 0x10"] (given 0 0 0)
    (fun t => t.err == none && t.pc == 1 && t.cyc == .halt) =
    true := by decide
theorem test_none_X3 : after ["FOO ga"] (given 0 0 0) (fun t => t.err == some .execute) = true := by decide
/-- X2, Y1, Y2: Decode errors come first, in slot order. -/
theorem test_decode_errors : after ["FOO bar"] (given 0 0 0)
    (fun t => t.err == some .registerRead && t.pc == 1) = true ∧
    after ["MOV zz 0x100"] (given 0 0 0) (fun t => t.err == some .registerRead) = true ∧
    after ["MOV 0x100 zz"] (given 0 0 0) (fun t => t.err == some .memoryRead) = true := by decide
/-- K1: the batch runs both instructions and halts at the end of the text. -/
theorem test_autostep_K1 : after ["MOV ga 5", "ADD ga 3"] (given 0 0 0)
    (fun t => ga t == 8 && t.pc == 2 && t.cyc == .halt && t.err == none) = true := by decide

/-! ### Witnesses: encoding and the text -/

/-- Three instructions that between them hold every kind of slot, at the ends of the ranges. -/
def sampleA : Instr := .add (.register ⟨.gpr 3, .w8⟩ ⟨.w8, 255⟩) (imm 65535) (cellAt 255 65535)
def sampleB : Instr := .jmp (.symbol ['a']) .malformed .none
def sampleC : Instr := .not (.register ⟨.fo, .w1⟩ ⟨.w1, 1⟩) .none .none

theorem test_witness_EncodedLineDecodesBack : Config.ref16.legal = true ∧ sampleA.wellFormed Config.ref16 = true ∧
    sampleB.wellFormed Config.ref16 = true ∧ sampleC.wellFormed Config.ref16 = true := by decide

/-- A state about to decode the line of `sampleC`, with `fo` set. -/
def aboutToDecode : State :=
  { given 0 0 0 with cyc := .decode, fo := true, cap := encode Config.ref16 sampleC }

theorem test_witness_DecodeStageLatchesEncodedInstruction : aboutToDecode.cfg.legal = true ∧
    aboutToDecode.cyc = .decode ∧ sampleC.wellFormed aboutToDecode.cfg = true ∧ Instr.current aboutToDecode sampleC ∧
    aboutToDecode.cap = encode aboutToDecode.cfg sampleC :=
  ⟨by decide, rfl, by decide, ⟨by change _ = _; decide, trivial, trivial⟩, rfl⟩

theorem test_witness_KeywordsMatchInAnyCase :
    ∀ o ∈ namedOpcodes, ("Nop".toList).map toUpper ≠ o.keyword := by decide

theorem test_witness_ClassifierSeparatesTokenForms : legalMarker [';'] = true ∧ "fF".toList ≠ [] ∧
    ("fF".toList).all isHexDigit = true ∧ numeral 16 hexDigitValue "fF".toList < 2 ^ 128 ∧
    ("340282366920938463463374607431768211456".toList).all isDigit = true ∧
    ¬ numeral 10 digitValue "340282366920938463463374607431768211456".toList < 2 ^ 128 ∧
    ("Zz".toList).all isLetter = true := by decide

/-- M16 and M18 of 95_test_vectors.md: any case, and the section letter of `W` itself. -/
theorem test_witness_RegisterNamesAreExactlyTheRegisters : Config.ref16.legal = true ∧
    lookupName Config.ref16 "Ga".toList = some ⟨.gpr 0, .w16⟩ ∧
    lookupName Config.ref16 "GDW".toList = some ⟨.gpr 3, .w16⟩ ∧
    ("GDW".toList).map toLower = regName Config.ref16 ⟨.gpr 3, .w16⟩ ++ sectionLetter Config.ref16.w ∧
    RegRef.ok Config.ref16 ⟨.gpr 3, .w8⟩ = true ∧ lookupName Config.ref16 "ge".toList = none ∧
    lookupName Config.ref16 "gad".toList = none := by decide

theorem test_witness_LabelTableGivesLastDeclaringLine :
    labelTable [';'] [".x".toList, ".x".toList] ['x'] = some 2 ∧ labelTable [';'] [".x".toList] ['y'] = none := by
        decide

/-! ### Witnesses: registers and memory -/

theorem test_witness_RegisterWriteReplacesLowBits : RegRef.ok (given 0 0 0).cfg ⟨.gpr 3, .w8⟩ = true ∧
    RegRef.ok (given 0 0 0).cfg ⟨.fc, .w1⟩ = true ∧ RegRef.ok (given 0 0 0).cfg ⟨.pc, .w16⟩ = true := by decide

/-- A memory with the first and the last cell listed. -/
def twoCells : State := { given 255 256 0 with mem := [(0, 1), (255, 0xFFFF)] }

theorem test_witness_MemReadChecksTheBound : 255 < twoCells.cfg.memcap ∧ twoCells.cfg.memcap ≤ 256 := by decide

theorem test_witness_MemWriteReplacesOneCell : Memory.wf twoCells.mem = true ∧ 255 < twoCells.cfg.memcap ∧
    twoCells.cfg.memcap ≤ 256 := by decide

theorem test_witness_CanonicalMemoriesAreExtensional : Memory.wf [(5, 1)] = true ∧
    ∀ a, Memory.read [(5, 1)] a = Memory.read [(5, 1)] a := ⟨by decide, fun _ => rfl⟩

/-! ### Witnesses: the instructions -/

theorem test_witness_MovToRegisterCopies : sourceRIM (cellAt 255 0xFFFF) = some 0xFFFF ∧
    Slot.isRIM (.symbol ['a']) = false := by decide

theorem test_witness_MovToMemoryStores : Memory.wf twoCells.mem = true ∧ 255 < twoCells.cfg.memcap ∧
    sourceRIM (regA 0xFFFF) = some 0xFFFF := by decide

/-- For ADD, SUB, MUL, AND, OR and XOR. -/
theorem test_witness_two_source : sourceRIM (imm 0xFFFF) = some 0xFFFF ∧ sourceRIM (regB 0) = some 0 ∧
    sourceRIM (cellAt 0 1) = some 1 := by decide

/-- Both clauses of DIV at an 8-bit destination: 255 divides, 256 is truncated to zero. -/
theorem test_witness_DivWritesQuotientOrRaises : sourceRIM (imm 255) = some 255 ∧ BitVec.ofNat 8 255 ≠ 0 ∧
    sourceRIM (imm 256) = some 256 ∧ BitVec.ofNat 8 256 = 0 := by decide

theorem test_witness_ShiftsMaskTheCountToTheWidth : sourceRI (imm 16) = some 16 ∧ sourceRI
    (regB 0xFFFF) = some 0xFFFF := by
  decide

theorem test_witness_StStoresAtRegisterAddress : Memory.wf twoCells.mem = true ∧
    Value.nat ⟨.w16, 255⟩ < twoCells.cfg.memcap ∧ twoCells.cfg.memcap ≤ Value.nat ⟨.w16, 256⟩ ∧
    ((regA 0).isReg && (imm 0).isReg) = false := by decide

theorem test_witness_LdLoadsFromRegisterAddress : Value.nat ⟨.w16, 255⟩ < twoCells.cfg.memcap ∧
    twoCells.cfg.memcap ≤ Value.nat ⟨.w16, 256⟩ ∧ ((imm 0).isReg && (regA 0).isReg) = false := by decide

/-- (63, 63) lies inside the display, (64, 63) and (63, 64) outside. -/
theorem test_witness_WdmSendsOnePixel : sourceRIM (imm 0x3F3F) = some 0x3F3F ∧
    0x3F3F / 256 % 256 < (given 0 0 0).cfg.dw ∧ 0x3F3F % 256 < (given 0 0 0).cfg.dh ∧
    sourceRIM (imm 0x403F) = some 0x403F ∧ (given 0 0 0).cfg.dw ≤ 0x403F / 256 % 256 ∧
    sourceRIM (imm 0x3F40) = some 0x3F40 ∧ (given 0 0 0).cfg.dh ≤ 0x3F40 % 256 := by decide

/-- A program whose last line declares a label that an earlier line declares too, with `fz` and `fn` set. -/
def twiceDeclared : State :=
  { given 0 0 0 with prog := [".x".toList, "HALT".toList, ".x".toList], fz := true, fn := true }

theorem test_witness_TakenJumpsGoToTheLineAfterTheLabel : launchRefusal twiceDeclared.cfg twiceDeclared.prog = none ∧
    twiceDeclared.prog[2]? = some ".x".toList ∧ lineClass twiceDeclared.cfg.cmt ".x".toList = .label ['x'] ∧
    (∀ (j : Nat) (l' : Line), 2 < j → twiceDeclared.prog[j]? = some l' →
        lineClass twiceDeclared.cfg.cmt l' ≠ .label ['x']) ∧
    twiceDeclared.fz = true ∧ twiceDeclared.fn = true := by
  refine ⟨by decide, by decide, by decide, fun j l' hj hl => ?_, rfl, rfl⟩
  have : j < 3 := (List.getElem?_eq_some_iff.mp hl).1
  omega

theorem test_witness_UntakenJumpsChangeNothing : (given 0 0 0).fz = false ∧ (given 0 0 0).fn = false := by decide

theorem test_witness_JumpsToMissingLabelsRaise :
    (∀ l ∈ twiceDeclared.prog, lineClass twiceDeclared.cfg.cmt l ≠ .label ['y']) ∧ twiceDeclared.fz = true ∧
    twiceDeclared.fn = true := by decide

theorem test_witness_UnrecognisedOpcodesRaiseExecute :
    tokens [';'] "NOP ga".toList = some (['N', 'O', 'P'], [['g', 'a']]) ∧
    ∀ o ∈ namedOpcodes, (['N', 'O', 'P']).map toUpper ≠ o.keyword := by decide

theorem test_witness_DisallowedTagsRaiseExecute : Instr.shapeOk (.shl (regA 0) (cellAt 1 0) .none) = false ∧
    Instr.shapeOk (.unrecognised .none .none .none) = false ∧ Instr.shapeOk (.wdm (imm 0) (imm 0) .none) = false := by
  decide

/-- The destination in slot 1 and in the optional slot, and an odd and an even second operand. -/
theorem test_witness_FlagUpdateWinsOverFlagDestination : Reg.fc ∈ flagRegs ∧
    destination .none ⟨.fc, .w1⟩ = ⟨.fc, .w1⟩ ∧ destination (.register ⟨.fz, .w1⟩ ⟨.w1, 0⟩) ⟨.gpr 0, .w16⟩ = ⟨.fz, .w1⟩ ∧
    sourceRIM (imm 0xFFFF) = some 0xFFFF ∧ decide (0xFFFF % 2 = 1) = true ∧
    sourceRIM (imm 0) = some 0 ∧ decide (0 % 2 = 1) = false ∧ sourceRI (imm 1) = some 1 := by decide

/-- A12 and E16: the destination flag ends with the flag update. -/
theorem test_flag_destination_A12_E16 :
    after ["ADD fc 1"] { given 0 0 0 with fc := true } (fun t => flags t == [true, false, true, true]) = true ∧
    after ["NOT fz"] { given 0 0 0 with fz := true } (fun t => t.fz && !t.fn) = true := by decide

/-! ### Witnesses: frames, each with an instruction that completes -/

theorem test_witness_TwoSourceAluFrame : ∃ t, exec (.div (regA 9) (regB 2) .none) (given 9 2 0) = .next t ∧
    t.err = none ∧ ga t = 4 := ⟨_, rfl, rfl, by decide⟩
theorem test_witness_NotFrame : ∃ t, exec (.not (regA 9) .none .none) (given 9 0 0) = .next t ∧ ga t = 0xFFF6 :=
  ⟨_, rfl, by decide⟩
theorem test_witness_CopyToRegisterFrame : (∃ t, exec (.mov (regA 9) (imm 7) .none) (given 9 0 0) = .next t ∧
      ga t = 7) ∧
    ∃ t, exec (.ld (regA 9) (regB 255) .none) twoCells = .next t ∧ ga t = 0xFFFF :=
  ⟨⟨_, rfl, by decide⟩, _, rfl, by decide⟩
theorem test_witness_StoreFrame : (∃ t, exec (.mov (cellAt 255 0) (imm 7) .none) (given 9 0 0) = .next t ∧
      t.mem = [(255, 7)]) ∧
    ∃ t, exec (.st (regA 255) (regB 256) .none) (given 255 256 0) = .next t ∧ t.mem = [(255, 256)] :=
  ⟨⟨_, rfl, by decide⟩, _, rfl, by decide⟩
theorem test_witness_JumpAndPixelFrame : (∃ t, exec (.jmp (.symbol ['x']) .none .none) twiceDeclared = .next t ∧
      t.pc = 3 ∧ t.err = none) ∧
    ∃ t, exec (.wdm (imm 0) (imm 0) (imm 0x3F3F)) (given 0 0 0) = .next t ∧ t.pixels = [⟨63, 63, 0, 0, 0, 0⟩] :=
  ⟨⟨_, rfl, by decide, by decide⟩, _, rfl, by decide⟩
theorem test_witness_InstructionsWriteOnlyWhatTheTableSays :
    (∃ t, exec (.st (regA 1) (regB 2) .none) (given 1 2 0) = .next t ∧ t.mem ≠ (given 1 2 0).mem) ∧
    (∃ t, exec (.wdm (imm 0) (imm 0) (imm 0)) (given 0 0 0) = .next t ∧ t.pixels ≠ (given 0 0 0).pixels) ∧
    ∃ t, exec (.sub (regA 1) (imm 1) .none) (given 1 0 0) = .next t ∧ t.cell .fz ≠ (given 1 0 0).cell .fz :=
  ⟨⟨_, rfl, by decide⟩, ⟨_, rfl, by decide⟩, _, rfl, by decide⟩

/-! ### Witnesses: the stages and the sequencer -/

/-- A launched machine in Fetch, at line 1 of a program of a label, an instruction and a comment. -/
def launched : State := { given 0 0 0 with prog := [".x".toList, "MOV ga pc".toList, "; end".toList], pc := 0 }

theorem test_witness_FetchCapturesTheNextInstruction : launchRefusal launched.cfg launched.prog = none ∧
    launched.cyc = .fetch ∧ launched.pc.toNat ≤ 1 ∧ launched.prog[1]? = some "MOV ga pc".toList ∧
    lineClass launched.cfg.cmt "MOV ga pc".toList = .capturable ∧
    (∀ (j : Nat) (l' : Line), launched.pc.toNat ≤ j → j < 1 → launched.prog[j]? = some l' →
      lineClass launched.cfg.cmt l' ≠ .capturable) := by
  refine ⟨by decide, rfl, by decide, by decide, by decide, fun j l' _ hj hl => ?_⟩
  have : j = 0 := by omega
  subst this
  cases hl
  decide

/-- The halting clause, with `pc` on the last line, at the end and past it. -/
theorem test_witness_FetchFindsTheEnd (p : Nat) (hp : p ∈ [2, 3, 9]) (j : Nat) (l' : Line) (hj : p ≤ j)
    (hl : launched.prog[j]? = some l') : lineClass launched.cfg.cmt l' ≠ .capturable := by
  have h3 : j < 3 := (List.getElem?_eq_some_iff.mp hl).1
  have h2 : j = 2 := by simp only [List.mem_cons, List.not_mem_nil, or_false] at hp; omega
  subst h2
  cases hl
  decide

theorem test_witness_OperandsResolveAsTheRuleSays : launched.cyc ≠ .startup ∧
    lookupName launched.cfg ['g', 'd'] = some ⟨.gpr 3, .w16⟩ ∧ lookupName launched.cfg ['g', 'e'] = none ∧
    255 < launched.cfg.memcap ∧ launched.cfg.memcap ≤ 256 := by decide

/-- A state about to decode a line. -/
def decoding (line : String) : State := { given 0 0 0 with cyc := .decode, cap := line.toList }

theorem test_witness_DecodeReportsTheFirstFailure : launchRefusal (decoding "").cfg (decoding "").prog = none ∧
    (decoding "").cyc = .decode ∧
    parseLine [';'] (decoding "ADD ga 1 0x100").cap = some ⟨.add, .register ['g', 'a'], .immediate 1, .memAddr 256⟩ ∧
    resolve (decoding "ADD ga 1 0x100") (.register ['g', 'a']) = .ok (regA 0) ∧
    resolve (decoding "ADD ga 1 0x100") (.immediate 1) = .ok (imm 1) ∧
    resolve (decoding "ADD ga 1 0x100") (.memAddr 256) = .error .memoryRead ∧
    resolve (decoding "ADD ga 1 0xFF") (.memAddr 255) = .ok (cellAt 255 0) ∧
    resolve (decoding "ADD zz") (.register ['z', 'z']) = .error .registerRead :=
  ⟨by decide, rfl, by decide, rfl, rfl, rfl, rfl, rfl⟩

theorem test_witness_ExecuteTickRunsTheLatchedInstruction :
    let s : State := { given 0 0 0 with cyc := .execute, ir := .mov (regA 0) (imm 7) .none }
    launchRefusal s.cfg s.prog = none ∧ s.cyc = .execute ∧ ∃ t, exec s.ir s = .next t :=
  ⟨by decide, rfl, _, rfl⟩

theorem test_witness_ThreeTicksRunTheInstructionAtPc :
    let s : State := { launched with pc := 1 }
    let s1 : State := { s with pc := BitVec.ofNat 128 (s.pc.toNat + 1), cap := "MOV ga pc".toList, cyc := .decode }
    let i : Instr := .mov (regA 0) (.register ⟨.pc, .w16⟩ ⟨.w16, 2⟩) .none
    launchRefusal s.cfg s.prog = none ∧ s.cyc = .fetch ∧ s.prog[s.pc.toNat]? = some "MOV ga pc".toList ∧
    lineClass s.cfg.cmt "MOV ga pc".toList = .capturable ∧
    parseLine s.cfg.cmt "MOV ga pc".toList = some ⟨.mov, .register ['g', 'a'], .register ['p', 'c'], .none⟩ ∧
    resolveAll s1 ⟨.mov, .register ['g', 'a'], .register ['p', 'c'], .none⟩ = .ok i ∧
    ∃ t, exec i { s1 with ir := i, cyc := .execute } = .next t :=
  ⟨by decide, rfl, by decide, by decide, by decide, rfl, _, rfl⟩

theorem test_witness_OperandPcIsTheNextLineIndex :
    let s : State := { launched with pc := 1 }
    launchRefusal s.cfg s.prog = none ∧ s.cyc = .fetch ∧ s.pc.toNat = 1 ∧
    s.prog[1]? = some "MOV ga pc".toList ∧ lineClass s.cfg.cmt "MOV ga pc".toList = .capturable ∧
    ∃ t, step s = .next t :=
  ⟨by decide, rfl, by decide, by decide, by decide, _, rfl⟩

theorem test_witness_LaunchedMachineAlwaysSteps : launchRefusal launched.cfg launched.prog = none ∧
    launchRefusal launched.cfg [['\u00a7']] = some .programNotAscii := by decide

theorem test_witness_HaltIsTerminal :
    let s : State := { launched with cyc := .halt }
    launchRefusal s.cfg s.prog = none ∧ s.cyc = .halt := by decide

/-- One witness for each of the three ways. -/
theorem test_witness_HaltIsReachedInThreeWays :
    nextAnd (step { launched with pc := 3 }) (fun t => t.cyc == .halt && t.err == none) = true ∧
    nextAnd (step { given 0 0 0 with cyc := .execute, ir := .halt .none .none .none })
      (fun t => t.cyc == .halt && t.err == none) = true ∧
    nextAnd (step (decoding "ADD zz")) (fun t => t.cyc == .halt && t.err == some .registerRead) = true ∧
    nextAnd (step { given 0 0 0 with cyc := .execute })
        (fun t => t.cyc == .halt && t.err == some .execute) = true := by
  decide

/-- A batch that halts inside, and one that goes back to AutoStep (`K` is 1). -/
theorem test_witness_AutoStepTickIsSingleTicks :
    nextAnd (step { launched with cyc := .autoStep }) (fun t => t.cyc == .halt) = true ∧
    nextAnd (step { launched with cyc := .autoStep, cfg := { Config.ref16 with k := 1 } })
        (fun t => t.cyc == .autoStep) =
      true := by decide

/-! ### Witnesses: reset, setup, load, invariants -/

theorem test_witness_ResetLeavesTheStatedValues : Config.ref16.legal = true ∧
    Config.legal { Config.ref16 with ngpr := 27 } = false := by decide

theorem test_witness_SetupStepZeroesTheRegisters : launchRefusal State.reset.cfg State.reset.prog = none ∧
    State.reset.cyc = .startup := by decide

theorem cutLines_lineFeeds : ∀ n, (cutLines (textOf (List.replicate n 10))).length = n
  | 0 => rfl
  | n + 1 => by
    have h : textOf (List.replicate (n + 1) 10) = '\n' :: textOf (List.replicate n 10) := rfl
    rw [h, cutLines, if_pos (by decide), List.length_cons, cutLines_lineFeeds n]

/-- At `W = 8`: 255 lines load, 256 do not. -/
theorem test_witness_LoadStartsANewRun : Config.legal { Config.ref16 with w := .w8 } = true ∧
    (∀ b ∈ List.replicate 256 (10 : BitVec 8), b.toNat < 128) ∧
    (cutLines (textOf (List.replicate 255 10))).length < 2 ^ Width.w8.bits ∧
    2 ^ Width.w8.bits ≤ (cutLines (textOf (List.replicate 256 10))).length ∧
    (∃ b ∈ [(128 : BitVec 8)], 128 ≤ b.toNat) := by
  refine ⟨by decide, fun b hb => ?_, ?_, ?_, by decide⟩
  · rw [List.eq_of_mem_replicate hb]; decide
  · rw [cutLines_lineFeeds]; decide
  · rw [cutLines_lineFeeds]; decide

/-- A state with the invariant that is not the reset state: an instruction is latched, memory and pixels are listed. -/
def executing : State :=
  { launched with cyc := .execute, ir := .add (regA 255) (imm 65535) .none, mem := [(255, 0xFFFF)], pixels :=
      [⟨63, 63, 0, 0, 0, 0⟩] }

theorem executing_gpr (i : Fin 26) : executing.gpr[i] = 0 := by
  have h : executing.gpr = Vector.replicate 26 0 := by decide
  simp [h]

theorem executing_inv : State.Inv executing where
  launch := by decide
  lines := fun l hl c hc => of_decide_eq_true (List.all_eq_true.mp (List.all_eq_true.mp
    (by decide : (executing.prog.all fun l => l.all fun c => decide (c.toNat ≠ 10)) = true) l hl) c hc)
  gprFits := fun i => by rw [executing_gpr]; unfold Config.fitsWord; decide
  gprAbsent := fun i _ => executing_gpr i
  pcFits := by unfold Config.fitsWord; decide
  marFits := by unfold Config.fitsWord; decide
  mdrFits := by unfold Config.fitsWord; decide
  memWf := by decide
  memFits := by unfold Config.fitsWord; decide
  capLine := by decide
  irFits := by decide
  errHalts := by decide
  pixelsIn := by decide

theorem test_witness_MemReadChecksTheBound_word : State.Inv executing ∧ executing.memRead 255 = some 0xFFFF :=
  ⟨executing_inv, by decide⟩

theorem test_witness_StepKeepsTheInvariant : State.Inv executing ∧ ∃ t, step executing = .next t :=
  ⟨executing_inv, _, rfl⟩

theorem test_witness_HostEventsKeepTheInvariant : State.Inv executing ∧
    (∃ t, hostEvent (.load [72, 65, 76, 84]) executing = .next t) ∧ ∃ t, hostEvent
        (.reset Config.ref16) executing = .next t :=
  ⟨executing_inv, ⟨_, rfl⟩, _, rfl⟩

/-- The invariant, a tick out of Halt, and a MemoryWrite error from ST. -/
def storing : State := { executing with ir := .st (regA 256) (regB 0) .none }

theorem storing_inv : State.Inv storing := { executing_inv with irFits := by decide }

theorem test_witness_CauselessErrorKindsNeverArise : State.Inv storing ∧ storing.cyc ≠ .halt ∧
    ∃ t, step storing = .next t ∧ storing.cyc = .execute ∧ t.err = some .memoryWrite :=
  ⟨storing_inv, by decide, _, rfl, rfl, by decide⟩

end Sys2Proof.Tests
end

section
/-! SUPPORT. Register names (10_state.md R22, R23, R29): `lookupName` sees a name in lower case, finds the name that
`regName` writes, and finds nothing that is no register of the machine. -/

namespace Sys2Proof

/-- Names that agree in lower case select the same reference (10_state.md R29). -/
theorem lookupName_congr_toLower (c : Config) {n m : List Char} (h : n.map toLower = m.map toLower) :
    lookupName c n = lookupName c m := by
  simp only [lookupName, h]

theorem map_toLower_map_toLower (n : List Char) : (n.map toLower).map toLower = n.map toLower := by
  simp [toLower_toLower]

theorem map_toLower_map_toUpper (n : List Char) : (n.map toUpper).map toLower = n.map toLower := by
  simp [toLower_toUpper]

theorem lookupName_gpr (c : Config) (i : Fin 26) (hi : i.val < c.ngpr) :
    lookupName c ['g', Char.ofNat (97 + i.val)] = some ⟨.gpr i, c.w⟩ := by
  have hg : toLower 'g' = 'g' := by decide
  simp [lookupName, hg, (gprLetter_facts i).1, gprOfLetter_ofNat i hi]

theorem lookupName_gpr_section (c : Config) (i : Fin 26) (hi : i.val < c.ngpr) {w : Width} (hs : w.isSection = true)
    (hw : w.bits ≤ c.w.bits) :
    lookupName c ('g' :: Char.ofNat (97 + i.val) :: sectionLetter w) = some ⟨.gpr i, w⟩ := by
  obtain ⟨l, hl, hsec, hlow, -⟩ := sectionLetter_facts hs
  have hg : toLower 'g' = 'g' := by decide
  simp [lookupName, hl, hg, hlow, hsec, hw, (gprLetter_facts i).1, gprOfLetter_ofNat i hi]

/-- The name of a register through a view it has selects that reference. -/
theorem lookupName_regName {c : Config} {r : RegRef} (h : r.ok c = true) : lookupName c (regName c r) = some r := by
  obtain ⟨reg, w⟩ := r
  cases reg with
  | gpr i =>
    simp only [RegRef.ok, Bool.and_eq_true, Bool.or_eq_true, decide_eq_true_eq] at h
    obtain ⟨hi, hw⟩ := h
    by_cases hcw : w = c.w
    · simp only [regName, if_pos hcw]
      exact hcw ▸ lookupName_gpr c i hi
    · obtain ⟨hs, hb⟩ := hw.resolve_left hcw
      simp only [regName, if_neg hcw]
      exact lookupName_gpr_section c i hi hs hb
  | _ => simp only [RegRef.ok, decide_eq_true_eq] at h; exact h ▸ rfl

/-- The section letter of `W` itself selects the whole register (10_state.md R23). -/
theorem lookupName_regName_section (c : Config) {i : Fin 26} (h : RegRef.ok c ⟨.gpr i, c.w⟩ = true) :
    lookupName c (regName c ⟨.gpr i, c.w⟩ ++ sectionLetter c.w) = some ⟨.gpr i, c.w⟩ := by
  by_cases hs : c.w.isSection = true
  · have hi : i.val < c.ngpr := by
      simp only [RegRef.ok, Bool.and_eq_true, decide_eq_true_eq] at h
      exact h.1
    simpa [regName] using lookupName_gpr_section c i hi hs (Nat.le_refl _)
  · have hnil : sectionLetter c.w = [] := by cases hw : c.w <;> simp_all [Width.isSection, sectionLetter]
    rw [hnil, List.append_nil]
    exact lookupName_regName h

/-- A section letter is the letter of the view it selects (10_state.md R23). -/
theorem sectionLetter_of_sectionWidth {l : Char} {w : Width} (h : sectionWidth l = some w) : sectionLetter w = [l] := by
  simp only [sectionWidth] at h
  split_ifs at h with hb hw hd hq <;> cases h <;> simp [sectionLetter, *]

theorem letter_of_gprOfLetter {n : Nat} {l : Char} {i : Fin 26} (h : gprOfLetter n l = some i) :
    l = Char.ofNat (97 + i.val) :=
  char_toNat_inj ((gprOfLetter_some h).2.trans (toNat_ofNat (by omega)).symm)

/-- What is found is a register of the machine through a view it has, by its own name or with the section letter of `W`
(10_state.md R22, R23, R29). -/
theorem lookupName_some {c : Config} {n : List Char} {r : RegRef} (h : lookupName c n = some r) :
    r.ok c = true ∧ (n.map toLower = regName c r ∨
      ∃ i : Fin 26, r = ⟨.gpr i, c.w⟩ ∧ n.map toLower = regName c r ++ sectionLetter c.w) := by
  simp only [lookupName] at h
  split at h
  case h_8 l hn =>
    cases hg : gprOfLetter c.ngpr l with
    | none => simp [hg] at h
    | some i =>
      simp only [hg, Option.some.injEq] at h
      subst h
      exact ⟨by simp [RegRef.ok, (gprOfLetter_some hg).1], .inl (by simp [hn, regName, letter_of_gprOfLetter hg])⟩
  case h_9 l x hn =>
    cases hg : gprOfLetter c.ngpr l with
    | none => simp [hg] at h
    | some i =>
      cases hx : sectionWidth x with
      | none => simp [hg, hx] at h
      | some w =>
        simp only [hg, hx] at h
        split_ifs at h with hb
        cases h
        refine ⟨by simp [RegRef.ok, (gprOfLetter_some hg).1, sectionWidth_isSection hx, hb], ?_⟩
        by_cases hcw : w = c.w
        · exact .inr ⟨i, by rw [hcw], by
            simp [hn, regName, hcw, ← letter_of_gprOfLetter hg, sectionLetter_of_sectionWidth (hcw ▸ hx)]⟩
        · exact .inl (by
            simp [hn, regName, hcw, ← letter_of_gprOfLetter hg, sectionLetter_of_sectionWidth hx])
  case h_10 => cases h
  all_goals
    rename_i hn
    cases h
    exact ⟨by simp [RegRef.ok], .inl (by simp [hn, regName])⟩

theorem lookupName_ok {c : Config} {n : List Char} {r : RegRef} (h : lookupName c n = some r) : r.ok c = true :=
  (lookupName_some h).1

/-- A name is found exactly when it names a register of the machine through a view it has (10_state.md R29). -/
theorem lookupName_eq_some_iff (c : Config) (n : List Char) (r : RegRef) : lookupName c n = some r ↔
    r.ok c = true ∧ (n.map toLower = regName c r ∨
      ∃ i : Fin 26, r = ⟨.gpr i, c.w⟩ ∧ n.map toLower = regName c r ++ sectionLetter c.w) := by
  refine ⟨lookupName_some, ?_⟩
  have hlow : lookupName c n = lookupName c (n.map toLower) :=
    lookupName_congr_toLower c (map_toLower_map_toLower n).symm
  rintro ⟨hok, hn | ⟨i, rfl, hn⟩⟩ <;> rw [hlow, hn]
  · exact lookupName_regName hok
  · exact lookupName_regName_section c hok

/-- Settles O6: the account of `lookupName` above, which looks at a name in lower case only. -/
theorem registerNamesAreExactlyTheRegisters : Obligations.RegisterNamesAreExactlyTheRegisters := by
  intro c _
  refine ⟨fun n => lookupName_congr_toLower c (map_toLower_map_toLower n), lookupName_eq_some_iff c, fun r hr => ?_⟩
  have hname := lookupName_regName hr
  exact ⟨hname, (lookupName_congr_toLower c (map_toLower_map_toUpper _)).trans hname⟩

end Sys2Proof
end

section
/-! SUPPORT. The bits of a register through a view (10_state.md R24, R25). -/

namespace Sys2Proof.Machine

theorem getLsbD_trunc (w : Width) (v : Word) (k : Nat) :
    (trunc w v.toNat).getLsbD k = (decide (k < w.bits) && v.getLsbD k) := by
  rw [← BitVec.testBit_toNat, trunc_toNat, Nat.testBit_mod_two_pow, BitVec.testBit_toNat]

theorem getLsbD_mergeLow (w : Width) (old v : Word) (k : Nat) :
    (mergeLow w old v).getLsbD k = if k < w.bits then v.getLsbD k else old.getLsbD k := by
  have hlow : v.toNat % 2 ^ w.bits < 2 ^ w.bits := Nat.mod_lt _ (Nat.two_pow_pos _)
  rw [← BitVec.testBit_toNat, mergeLow_toNat, Nat.mul_comm, Nat.testBit_two_pow_mul_add _ hlow]
  split_ifs with hk
  · simp [Nat.testBit_mod_two_pow, hk, BitVec.testBit_toNat]
  · rw [Nat.testBit_div_two_pow, Nat.sub_add_cancel (Nat.le_of_not_lt hk), BitVec.testBit_toNat]

theorem getLsbD_flagWord (b : Bool) (k : Nat) : (flagWord b).getLsbD k = (decide (k = 0) && b) := by
  cases b <;> simp [flagWord]

/-- A flag has one bit, so keeping the low bit of the merged cell loses nothing (10_state.md R28). -/
theorem getLsbD_flagWord_mergeLow (b : Bool) (v : Word) (k : Nat) :
    (flagWord ((mergeLow .w1 (flagWord b) v).getLsbD 0)).getLsbD k =
      if k < Width.bits .w1 then v.getLsbD k else (flagWord b).getLsbD k := by
  rw [getLsbD_flagWord, getLsbD_mergeLow, getLsbD_flagWord]
  by_cases hk : k = 0
  · subst hk; simp [Width.bits]
  · have h1 : ¬ k < Width.bits .w1 := by simp only [Width.bits]; omega
    simp [hk, h1, getLsbD_flagWord]

/-- The bits of a cell after a write through a view it has (10_state.md R25). -/
theorem getLsbD_cell_writeReg_same {s : State} {r : RegRef} (hr : r.ok s.cfg = true) (v : Word) (k : Nat) :
    ((s.writeReg r v).cell r.reg).getLsbD k =
      if k < r.width.bits then v.getLsbD k else (s.cell r.reg).getLsbD k := by
  rw [cell_writeReg_same]
  obtain ⟨reg, w⟩ := r
  cases reg with
  | fz | fn | fc | fo =>
    have hw : w = .w1 := by simpa [RegRef.ok] using hr
    subst hw
    exact getLsbD_flagWord_mergeLow ..
  | pc | mar | mdr | gpr => exact getLsbD_mergeLow ..

/-- Settles O8: a read truncates the cell to the view. -/
theorem registerReadGivesLowBits : Obligations.RegisterReadGivesLowBits := by
  intro s r
  exact ⟨readReg_width s r, getLsbD_trunc r.width (s.cell r.reg)⟩

/-- Settles O9: the bits of the merged cell, and the frame of a register write. -/
theorem registerWriteReplacesLowBits : Obligations.RegisterWriteReplacesLowBits := by
  intro s r v hr
  exact ⟨getLsbD_cell_writeReg_same hr v, writeReg_frame s r v⟩

end Sys2Proof.Machine
end
section
/-! SUPPORT. Who writes what over all instructions: the cells, the memory and the pixels after an effect (10_state.md R28,
R40; 20_memory.md R60, R66). -/

namespace Sys2Proof.Machine

/-- Memory is written by a store only (20_memory.md R60, R66). -/
theorem Effect.mem_eq {i : Instr} {s t : State} (h : Effect i s t) (hm : i.opcode ≠ .mov) (hs : i.opcode ≠ .st) :
    t.mem = s.mem := by
  cases h with
  | store a n ha h => exact absurd h (by simp [hm, hs])
  | _ => simp

/-- Pixels are sent by WDM only (46_pixel.md R170). -/
theorem Effect.pixels_eq {i : Instr} {s t : State} (h : Effect i s t) (hw : i.opcode ≠ .wdm) :
    t.pixels = s.pixels := by
  cases h with
  | pixel p h => exact absurd h hw
  | _ => simp

theorem isAlu_iff (o : Opcode) : Opcode.isAlu o = true ↔
    o ∈ [Opcode.add, .sub, .mul, .div, .and, .or, .xor, .not, .shl, .shr] := by
  cases o <;> decide

/-- A cell that changed was a named destination, a flag of an ALU instruction, or the `pc` of a jump
(10_state.md R27, R28; 42_arithmetic.md R137). -/
theorem Effect.cell_ne {i : Instr} {s t : State} (h : Effect i s t) {r : Reg} (hr : t.cell r ≠ s.cell r) :
    (∃ (n : Width) (v : Value), Instr.hasSlot i (.register ⟨r, n⟩ v)) ∨
      (r ∈ flagRegs ∧ Opcode.isAlu i.opcode = true) ∨
      (r = .pc ∧ (i.opcode = .jmp ∨ i.opcode = .jiz ∨ i.opcode = .jin)) := by
  cases h with
  | alu d v res ha hd =>
    by_cases hf : r ∈ flagRegs
    · exact .inr (.inl ⟨hf, ha⟩)
    · have hrd : r = d.reg := by
        by_contra hne
        exact hr ((cell_aluWrite _ _ _ _ hf).trans (cell_writeReg_other _ _ _ _ hne))
      exact .inl ⟨d.width, v, hrd ▸ hd⟩
  | copy d v n ho hd =>
    have hrd : r = d.reg := by
      by_contra hne
      exact hr (cell_writeReg_other _ _ _ _ hne)
    exact .inl ⟨d.width, v, .inl (hrd ▸ hd.symm)⟩
  | jump n hj =>
    have hpc : r = .pc := by
      by_contra hne
      exact hr ((setPc_frame s n).1 r (by simpa using hne))
    exact .inr (.inr ⟨hpc, hj⟩)
  | error | stop | store | pixel | fallThrough => exact absurd rfl hr

/-- Settles O38: what an effect of the instruction can write, by contraposition for memory and pixels. -/
theorem instructionsWriteOnlyWhatTheTableSays : Obligations.InstructionsWriteOnlyWhatTheTableSays := by
  intro i s t hexec
  have he := effect_of_exec hexec
  refine ⟨he.frame, fun hmem => ?_, fun hpix => ?_, fun r hr => ?_⟩
  · by_contra hno
    rw [not_or] at hno
    exact hmem (he.mem_eq hno.1 hno.2)
  · by_contra hno
    exact hpix (he.pixels_eq hno)
  · rcases he.cell_ne hr with ⟨n, v, hslot⟩ | ⟨hf, ha⟩ | ⟨hpc, hj⟩
    · exact .inl ⟨n, v, by simpa [Instr.hasSlot] using hslot⟩
    · exact .inr (.inl ⟨hf, (isAlu_iff _).mp ha⟩)
    · exact .inr (.inr ⟨hpc, by simpa using hj⟩)

end Sys2Proof.Machine
end

section
/-! SUPPORT. The invariant holds after RESET (10_state.md R41, 70_reset_and_hazards.md R215). -/

namespace Sys2Proof.Machine

theorem fitsWord_zero (c : Config) : Config.fitsWord c 0 := Nat.two_pow_pos _

theorem replicate_zero_get (i : Fin 26) : (Vector.replicate 26 (0 : Word))[i] = 0 := by simp

/-- The empty program has a meaning under every legal configuration (70_reset_and_hazards.md R218). -/
theorem launchRefusal_nil {c : Config} (h : c.legal = true) : launchRefusal c [] = none :=
  launch_iff.mpr ⟨h, by simp, Nat.zero_le _⟩

theorem inv_resetWith {c : Config} (h : c.legal = true) : State.Inv (State.resetWith c) where
  launch := launchRefusal_nil h
  lines := by simp [State.resetWith]
  gprFits i := by
    have hi : (State.resetWith c).gpr[i] = 0 := replicate_zero_get i
    exact hi ▸ fitsWord_zero c
  gprAbsent i _ := replicate_zero_get i
  pcFits := fitsWord_zero c
  marFits := fitsWord_zero c
  mdrFits := fitsWord_zero c
  memWf := rfl
  memFits := by simp [State.resetWith]
  capLine := by simp [State.resetWith]
  irFits := by simp [State.resetWith]
  errHalts := by simp [State.resetWith]
  pixelsIn := by simp [State.resetWith]

/-- Settles O53: every register holds 0, and memory, program and pixels are empty; REF16 is legal. -/
theorem invariantAfterReset : Obligations.InvariantAfterReset :=
  ⟨fun _ => inv_resetWith, inv_resetWith (c := Config.ref16) (by decide)⟩

end Sys2Proof.Machine
end
section
/-! SUPPORT. What Decode latches is well formed: operand tokens are consecutive, so the slots are filled in order, and each
operand resolves to a slot Decode can leave (30_encoding.md R76; 40_pipeline.md R106). -/

namespace Sys2Proof

/-- The operands of a line are the classes of its operand tokens, none of which is empty or starts a comment
(30_encoding.md R76). -/
theorem parseLine_operands {cmt : List Char} {l : Line} {src : SourceInstr} (h : parseLine cmt l = some src) :
    ∃ args : List (List Char), (∀ t ∈ args, t ≠ [] ∧ cmt.isPrefixOf t = false) ∧
      src.a1 = classify cmt (args.getD 0 []) ∧ src.a2 = classify cmt (args.getD 1 []) ∧
      src.a3 = classify cmt (args.getD 2 []) := by
  simp only [parseLine, tokens] at h
  cases hw : words (trim l) with
  | nil => simp [hw] at h
  | cons kw args =>
    simp only [hw, Option.map_some, Option.some.injEq] at h
    subst h
    refine ⟨_, fun t ht => ⟨?_, ?_⟩, rfl, rfl, rfl⟩
    · exact words_nonempty (trim l) t (hw ▸ List.mem_cons_of_mem _ (List.takeWhile_subset _ ht))
    · simpa using List.mem_takeWhile_imp ht

/-- An absent operand is followed by absent operands only (30_encoding.md R76). -/
theorem parseLine_order {cmt : List Char} {l : Line} {src : SourceInstr} (h : parseLine cmt l = some src) :
    (src.a1 = .none → src.a2 = .none) ∧ (src.a2 = .none → src.a3 = .none) := by
  obtain ⟨args, hargs, h1, h2, h3⟩ := parseLine_operands h
  rw [h1, h2, h3]
  simp only [classify_getD_none hargs]
  omega

/-- A symbol operand is a non-empty run of letters (30_encoding.md R81). -/
def Operand.symbolOk (o : Operand) : Prop := ∀ n, o = .symbol n → n ≠ [] ∧ n.all isLetter = true

theorem classify_symbolOk (cmt tok : List Char) : (classify cmt tok).symbolOk := fun _ => classify_symbol_ok

theorem parseLine_symbolOk {cmt : List Char} {l : Line} {src : SourceInstr} (h : parseLine cmt l = some src) :
    src.a1.symbolOk ∧ src.a2.symbolOk ∧ src.a3.symbolOk := by
  obtain ⟨args, -, h1, h2, h3⟩ := parseLine_operands h
  rw [h1, h2, h3]
  exact ⟨classify_symbolOk _ _, classify_symbolOk _ _, classify_symbolOk _ _⟩

end Sys2Proof

namespace Sys2Proof.Machine

theorem trunc_fits (w : Width) (n : Nat) : Value.fits ⟨w, trunc w n⟩ = true := by
  simp only [Value.fits, decide_eq_true_eq]
  exact trunc_lt w n

/-- A read of memory yields a word (20_memory.md R51). -/
theorem State.Inv.read_fits {s : State} (h : State.Inv s) (a : Nat) : Config.fitsWord s.cfg (Memory.read s.mem a) := by
  rcases Memory.read_mem (a := a) (m := s.mem) with hu | hm
  · exact hu ▸ Nat.two_pow_pos _
  · exact (h.memFits _ hm).2

/-- A name found by the machine names a register it has (10_state.md R29). -/
theorem lookup_ok {s : State} {n : List Char} {r : RegRef} (h : s.lookup n = some r) : r.ok s.cfg = true := by
  simp only [State.lookup] at h
  split_ifs at h
  exact lookupName_ok h

/-- Resolution gives a slot Decode can leave (40_pipeline.md R106). -/
theorem State.Inv.resolve_ok {s : State} (h : State.Inv s) {o : Operand} (ho : o.symbolOk) {x : Slot}
    (hx : resolve s o = .ok x) : x.ok s.cfg = true := by
  cases o with
  | none => cases hx; rfl
  | malformed => cases hx; rfl
  | immediate v => cases hx; simp [Slot.ok, trunc_fits]
  | symbol n => cases hx; simpa [Slot.ok] using ho n rfl
  | register n =>
    cases hl : s.lookup n with
    | none => simp [resolve, hl] at hx
    | some r =>
      simp only [resolve, hl, Except.ok.injEq] at hx
      subst hx
      simp [Slot.ok, lookup_ok hl, readReg_width, readReg_fits]
  | memAddr a =>
    simp only [resolve, memRead_eq] at hx
    split_ifs at hx with ha
    cases hx
    have hfits : Value.fits ⟨s.cfg.w, Memory.read s.mem a⟩ = true := decide_eq_true (h.read_fits a)
    simp [Slot.ok, hfits, Nat.lt_of_not_le ha]

/-- A slot is empty exactly when its operand is absent (40_pipeline.md R106). -/
theorem resolve_none_iff {s : State} {o : Operand} {x : Slot} (hx : resolve s o = .ok x) : x = .none ↔ o = .none := by
  cases o with
  | register n => cases hl : s.lookup n <;> simp [resolve, hl] at hx; simp [← hx]
  | memAddr a => cases hl : s.memRead a <;> simp [resolve, hl] at hx; simp [← hx]
  | _ => cases hx; simp

/-- What Decode latches is well formed (10_state.md R34). -/
theorem State.Inv.resolveAll_wellFormed {s : State} (h : State.Inv s) {l : Line} {src : SourceInstr} {i : Instr}
    (hp : parseLine s.cfg.cmt l = some src) (hi : resolveAll s src = .ok i) : i.wellFormed s.cfg = true := by
  obtain ⟨s1, s2, s3, h1, h2, h3, rfl⟩ := resolveAll_ok hi
  obtain ⟨ho1, ho2, ho3⟩ := parseLine_symbolOk hp
  obtain ⟨h12, h23⟩ := parseLine_order hp
  have hok1 := h.resolve_ok ho1 h1
  have hok2 := h.resolve_ok ho2 h2
  have hok3 := h.resolve_ok ho3 h3
  rw [← resolve_none_iff h1, ← resolve_none_iff h2] at h12
  rw [← resolve_none_iff h2, ← resolve_none_iff h3] at h23
  have horder : slotsInOrder s1 s2 s3 = true := by
    simp only [slotsInOrder, Bool.and_eq_true, Bool.or_eq_true, decide_eq_true_eq]
    exact ⟨Decidable.not_or_of_imp h12, Decidable.not_or_of_imp h23⟩
  simp [Instr.wellFormed, Opcode.instr_slots, horder, hok1, hok2, hok3]

end Sys2Proof.Machine
end

section
/-! SUPPORT. Every stage, every cycle and every batch keeps the invariant; so does the step (10_state.md R21 to R34;
20_memory.md R51; 60_exceptions.md R190). -/

namespace Sys2Proof.Machine

/-- `CYC` may move to a state that reads no latch while no error is raised. -/
theorem State.Inv.withCyc {s : State} (h : State.Inv s) (he : s.err = none) {c : Cycle} (hd : c ≠ .decode)
    (hx : c ≠ .execute) : State.Inv { s with cyc := c } :=
  State.Inv.latch h rfl rfl rfl h.pcFits rfl rfl rfl rfl (absurd · hd) (absurd · hx) (absurd he ·)

/-- `CYC <- Halt` keeps the invariant, whatever `pc` of `W` bits, `ERR` and `IR` the state is left with. -/
theorem State.Inv.halted {s t : State} (h : State.Inv s) (hc : t.cyc = .halt) (hcfg : t.cfg = s.cfg)
    (hprog : t.prog = s.prog) (hg : t.gpr = s.gpr) (hp : Config.fitsWord s.cfg t.pc) (hm : t.mar = s.mar)
    (hd : t.mdr = s.mdr) (hw : t.mem = s.mem) (hx : t.pixels = s.pixels) : State.Inv t :=
  State.Inv.latch h hcfg hprog hg hp hm hd hw hx (by simp [hc]) (by simp [hc]) (fun _ => hc)

/-! ### Setup and Fetch -/

theorem State.Inv.setupStep {s : State} (h : State.Inv s) (he : s.err = none) : State.Inv (setupStep s) := by
  have hz := fitsWord_zero s.cfg
  have hg (i : Fin 26) : (Machine.setupStep s).gpr[i] = 0 := replicate_zero_get i
  exact State.Inv.build h rfl rfl (fun i => hg i ▸ hz) (fun i _ => hg i) hz hz hz h.memWf h.memFits
    nofun nofun (absurd he ·) h.pixelsIn

/-- `pc <- t` writes a word (10_state.md R26). -/
theorem setPc_fits (s : State) (n : Nat) : Config.fitsWord s.cfg (s.setPc n).pc := trunc_lt s.cfg.w n

theorem State.Inv.fetchStage {s : State} (h : State.Inv s) (he : s.err = none) : State.Inv (fetchStage s) := by
  rcases fetchStage_cases s with ⟨i, l, -, -, hcap, -, hf⟩ | ⟨-, hf⟩ <;> rw [hf]
  · exact State.Inv.latch h rfl rfl rfl (setPc_fits s _) rfl rfl rfl rfl (fun _ => hcap) nofun (absurd he ·)
  · split_ifs
    · exact h.halted rfl rfl rfl rfl h.pcFits rfl rfl rfl rfl
    · exact h.halted rfl rfl rfl rfl (setPc_fits s _) rfl rfl rfl rfl

/-! ### Decode -/

theorem State.Inv.decodeError {s : State} (h : State.Inv s) (k : ErrorKind) : State.Inv (decodeError k s) :=
  h.halted rfl rfl rfl rfl h.pcFits rfl rfl rfl rfl

theorem State.Inv.decodeStage {s : State} (h : State.Inv s) (he : s.err = none) : State.Inv (decodeStage s) := by
  rcases decodeStage_cases s with ⟨-, hd⟩ | ⟨-, k, -, -, hd⟩ | ⟨src, i, hp, hi, hd⟩ <;> rw [hd]
  · exact h.decodeError .decode
  · exact h.decodeError k
  · exact State.Inv.latch h rfl rfl rfl h.pcFits rfl rfl rfl rfl nofun
      (fun _ => h.resolveAll_wellFormed hp hi) (absurd he ·)

/-! ### Execute -/

/-- A register write keeps the invariant (10_state.md R25). -/
theorem State.Inv.writeReg {s : State} (h : State.Inv s) {r : RegRef} (hr : r.ok s.cfg = true) (v : Word) :
    State.Inv (s.writeReg r v) := by
  obtain ⟨hg, ha, hp, hm, hd⟩ := writeReg_data h hr v
  exact State.Inv.build h (by simp) (by simp) hg ha hp hm hd (by simpa using h.memWf) (by simpa using h.memFits)
    (by simpa using h.capLine) (by simpa using h.irFits) (by simpa using h.errHalts) (by simpa using h.pixelsIn)

/-- The invariant speaks of no flag. -/
theorem State.Inv.setFlags {s : State} (h : State.Inv s) (w : Width) (res : AluResult) :
    State.Inv (s.setFlags w res) := { h with }

/-- A store inside memory keeps the invariant (20_memory.md R51, R53). -/
theorem State.Inv.store {s : State} (h : State.Inv s) {a : Nat} (ha : a < s.cfg.memcap) (n : Nat) :
    State.Inv { s with mem := Memory.write s.mem a (trunc s.cfg.w n) } where
  __ := h
  memWf := Memory.wf_write a _ h.memWf
  memFits p hp := by
    rcases Memory.mem_write hp with rfl | hp
    · exact ⟨ha, trunc_lt s.cfg.w n⟩
    · exact h.memFits p hp

/-- A pixel inside the display keeps the invariant (46_pixel.md R171). -/
theorem State.Inv.pixel {s : State} (h : State.Inv s) {p : SetPixel} (hx : p.x.toNat < s.cfg.dw)
    (hy : p.y.toNat < s.cfg.dh) : State.Inv { s with pixels := s.pixels ++ [p] } where
  __ := h
  pixelsIn q hq := by
    rcases List.mem_append.mp hq with hq | hq
    · exact h.pixelsIn q hq
    · rw [List.mem_singleton.mp hq]
      exact ⟨hx, hy⟩

theorem State.Inv.setPc {s : State} (h : State.Inv s) (n : Nat) : State.Inv (s.setPc n) :=
  { h with pcFits := setPc_fits s n }

/-- A register named by a slot of a well-formed instruction is one the machine has. -/
theorem register_slot_ok {i : Instr} {c : Config} (h : i.wellFormed c = true) {r : RegRef} {v : Value}
    (hr : Instr.hasSlot i (.register r v)) : r.ok c = true := by
  have hs := wellFormed_slot h hr
  simp only [Slot.ok, Bool.and_eq_true] at hs
  exact hs.1.1

/-- Every effect of a well-formed instruction keeps the invariant. -/
theorem State.Inv.effect {s t : State} (h : State.Inv s) {i : Instr} (hi : i.wellFormed s.cfg = true)
    (he : Effect i s t) : State.Inv t := by
  cases he with
  | error k => exact h.halted rfl rfl rfl rfl h.pcFits rfl rfl rfl rfl
  | stop => exact h.halted rfl rfl rfl rfl h.pcFits rfl rfl rfl rfl
  | alu d v res _ hd => exact (h.writeReg (register_slot_ok hi hd) _).setFlags d.width res
  | copy r v n _ hr => exact h.writeReg (register_slot_ok hi (.inl hr.symm)) _
  | store a n ha => exact h.store ha n
  | pixel p _ hx hy => exact h.pixel hx hy
  | jump n => exact h.setPc n
  | fallThrough => exact h

theorem State.Inv.afterExecute {s : State} (h : State.Inv s) : State.Inv (afterExecute s) := by
  by_cases hc : s.cyc = .halt
  · rw [afterExecute_of_halt s hc]
    exact h
  · rw [afterExecute_of_not_halt s hc]
    exact h.withCyc (h.err_none hc) (by decide) (by decide)

theorem State.Inv.executeStage {s t : State} (h : State.Inv s) (hc : s.cyc = .execute)
    (ht : executeStage s = .next t) : State.Inv t := by
  obtain ⟨u, hu, -, he⟩ := executeStage_next s
  rw [hu] at ht
  cases ht
  exact (h.effect (h.irFits hc) he).afterExecute

/-! ### The batch and the step -/

/-- A whole cycle keeps the invariant (40_pipeline.md R113). -/
theorem State.Inv.runCycle {s t : State} (h : State.Inv s) (he : s.err = none) (ht : runCycle s = .next t) :
    State.Inv t := by
  have hf := h.fetchStage he
  simp only [Machine.runCycle] at ht
  split_ifs at ht with hfh hdh
  · exact Host.Outcome.next.inj ht ▸ hf
  · exact Host.Outcome.next.inj ht ▸ hf.decodeStage (hf.err_none hfh)
  · have hx : (Machine.decodeStage (Machine.fetchStage s)).cyc = .execute := by
      obtain ⟨-, -, ⟨hx, -⟩ | ⟨hh, -⟩⟩ := decodeStage_kept (Machine.fetchStage s)
      · exact hx
      · exact absurd hh hdh
    exact (hf.decodeStage (hf.err_none hfh)).executeStage hx ht

/-- A batch keeps the invariant, by induction on the cycles that are left (40_pipeline.md R113). -/
theorem State.Inv.runBatch : ∀ {n : Nat} {s t : State}, State.Inv s → s.err = none → runBatch n s = .next t →
    State.Inv t
  | 0, s, t, h, he, ht => Host.Outcome.next.inj ht ▸ h.withCyc he (by decide) (by decide)
  | n + 1, s, t, h, he, ht => by
    obtain ⟨u, hu, -, -⟩ := runCycle_kept s
    have hinv := h.runCycle he hu
    simp only [Machine.runBatch, hu] at ht
    split_ifs at ht with hh
    · exact Host.Outcome.next.inj ht ▸ hinv
    · exact State.Inv.runBatch hinv (hinv.err_none hh) ht

/-- A tick keeps the invariant: one case per cycle state (40_pipeline.md R102). -/
theorem State.Inv.tick {s t : State} (h : State.Inv s) (ht : tick s = .next t) : State.Inv t := by
  have herr := h.err_none
  cases hc : s.cyc <;> simp only [Machine.tick, hc] at ht <;> simp only [hc] at herr
  case startup => exact Host.Outcome.next.inj ht ▸ h.setupStep (herr nofun)
  case fetch => exact Host.Outcome.next.inj ht ▸ h.fetchStage (herr nofun)
  case decode => exact Host.Outcome.next.inj ht ▸ h.decodeStage (herr nofun)
  case execute => exact h.executeStage hc ht
  case autoStep => exact h.runBatch (herr nofun) ht
  case halt => exact Host.Outcome.next.inj ht ▸ h

/-- Settles O54: a step of a state with the invariant is a tick, and every tick keeps it. -/
theorem stepKeepsTheInvariant : Obligations.StepKeepsTheInvariant := by
  intro s t h ht
  rw [step_launched h.launch] at ht
  exact h.tick ht

end Sys2Proof.Machine
end

section
/-! The data memory (20_memory.md): the access primitives against `MEMCAP` (R52, R53), and that a canonical memory is
determined by what it reads as (R54). -/

namespace Sys2Proof.Machine

/-! ### The access primitives -/

theorem memRead_inRange {s : State} {a : Nat} (h : a < s.cfg.memcap) :
    s.memRead a = some (Memory.read s.mem a) := by rw [memRead_eq, if_neg (Nat.not_le.mpr h)]

theorem memRead_outOfRange {s : State} {a : Nat} (h : s.cfg.memcap ≤ a) : s.memRead a = none := by
  rw [memRead_eq, if_pos h]

/-- A read that succeeds yields the cell. -/
theorem memRead_some {s : State} {a : Nat} {v : Word} (h : s.memRead a = some v) : v = Memory.read s.mem a := by
  rw [memRead_eq] at h
  split_ifs at h
  exact (Option.some.inj h).symm

/-- Settles O10: the two sides of the bound, and the width of a cell under the invariant. -/
theorem memReadChecksTheBound : Obligations.MemReadChecksTheBound := fun _ a =>
  ⟨memRead_inRange, memRead_outOfRange, fun h _ hv => memRead_some hv ▸ h.read_fits a⟩

/-- Settles O11: in range the write is `Memory.write`, with its read-back, its frame and its canonical form. -/
theorem memWriteReplacesOneCell : Obligations.MemWriteReplacesOneCell := by
  intro s a v hwf
  refine ⟨fun ha => ⟨_, memWrite_inRange v ha, ?_, memWrite_frame s a v, Memory.wf_write a v hwf⟩,
    memWrite_outOfRange v⟩
  calc State.memRead { s with mem := Memory.write s.mem a v } a
      = some (Memory.read (Memory.write s.mem a v) a) := memRead_inRange ha
    _ = some v := by rw [Memory.read_write_same hwf]

/-! ### The canonical form -/

theorem Memory.wfFrom_cons {lo b : Nat} {v : Word} {m : Memory} : Memory.wfFrom lo ((b, v) :: m) = true ↔
    lo ≤ b ∧ v ≠ Memory.unlisted ∧ Memory.wfFrom (b + 1) m = true := by
  simp only [Memory.wfFrom, Bool.and_eq_true, decide_eq_true_eq, and_assoc]

@[simp] theorem Memory.read_cons_self (b : Nat) (v : Word) (m : Memory) : Memory.read ((b, v) :: m) b = v :=
  if_pos rfl

/-- The cells after the first one read as the whole memory does, but at the first address. -/
theorem Memory.read_tail {b : Nat} {m : Memory} (v : Word) (h : Memory.wfFrom (b + 1) m = true) (a : Nat) :
    Memory.read m a = if a = b then Memory.unlisted else Memory.read ((b, v) :: m) a := by
  split_ifs with hab
  · exact Memory.read_below (by omega) h
  · rw [Memory.read, if_neg hab]

/-- An address that reads as a listed cell is no lower than the first one. -/
theorem Memory.le_of_read_ne {lo a : Nat} {m : Memory} (h : Memory.wfFrom lo m = true)
    (ha : Memory.read m a ≠ Memory.unlisted) : lo ≤ a :=
  Nat.le_of_not_lt fun hlt => ha (Memory.read_below hlt h)

/-- Canonical memories that read alike list the same cells: neither's first cell lies below the other's, and the cells
after the first read alike again. -/
theorem Memory.ext_of_wfFrom : ∀ {m m' : Memory} {lo lo' : Nat}, Memory.wfFrom lo m = true →
    Memory.wfFrom lo' m' = true → (∀ a, Memory.read m a = Memory.read m' a) → m = m'
  | [], [], _, _, _, _, _ => rfl
  | [], (b, v) :: rest, _, _, _, hm', heq =>
    absurd ((Memory.read_cons_self b v rest).symm.trans (heq b).symm) (Memory.wfFrom_cons.mp hm').2.1
  | (b, v) :: rest, [], _, _, hm, _, heq =>
    absurd ((Memory.read_cons_self b v rest).symm.trans (heq b)) (Memory.wfFrom_cons.mp hm).2.1
  | (b, v) :: rest, (b', v') :: rest', _, _, hm, hm', heq => by
    obtain ⟨-, hv, hrest⟩ := Memory.wfFrom_cons.mp hm
    obtain ⟨-, hv', hrest'⟩ := Memory.wfFrom_cons.mp hm'
    have hle : b ≤ b' := Memory.le_of_read_ne (Memory.wfFrom_cons.mpr ⟨le_rfl, hv, hrest⟩)
      (by simpa [heq] using hv')
    have hge : b' ≤ b := Memory.le_of_read_ne (Memory.wfFrom_cons.mpr ⟨le_rfl, hv', hrest'⟩)
      (by simpa [← heq] using hv)
    obtain rfl : b = b' := Nat.le_antisymm hle hge
    obtain rfl : v = v' := by simpa using heq b
    have htail (a : Nat) : Memory.read rest a = Memory.read rest' a := by
      rw [Memory.read_tail v hrest, Memory.read_tail v hrest', heq]
    rw [Memory.ext_of_wfFrom hrest hrest' htail]

/-- Settles O12: the canonical form of a memory is the one from address 0. -/
theorem canonicalMemoriesAreExtensional : Obligations.CanonicalMemoriesAreExtensional := fun _ _ =>
  Memory.ext_of_wfFrom

end Sys2Proof.Machine
end

section
/-! SUPPORT. Classifying a token (30_encoding.md R81, R82): what each literal test finds, and the tag and value of each
token form for every legal comment marker. -/

namespace Sys2Proof

theorem hexLiteral_hexDigits {ds : List Char} (hne : ds ≠ []) (hd : ds.all isHexDigit = true) :
    hexLiteral ('0' :: 'x' :: ds) =
      if numeral 16 hexDigitValue ds < 2 ^ 128 then some (numeral 16 hexDigitValue ds) else none := by
  simp [hexLiteral, hne, hd]

theorem decimalLiteral_digits {ds : List Char} (hne : ds ≠ []) (hd : ds.all isDigit = true) :
    decimalLiteral ds = if numeral 10 digitValue ds < 2 ^ 128 then some (numeral 10 digitValue ds) else none := by
  simp [decimalLiteral, hne, hd]

theorem symbolName_marker {ds : List Char} (hne : ds ≠ []) (hd : ds.all isLetter = true) :
    symbolName (labelMarker :: ds) = some ds := by
  simp [symbolName, hne, hd]

/-- A token of digits has no `x`, so it is no hex literal. -/
theorem hexLiteral_of_digits : ∀ {ds : List Char}, ds.all isDigit = true → hexLiteral ds = none
  | [], _ | [_], _ => rfl
  | a :: b :: ds, hd => by
    have hb : b ≠ 'x' := by
      rintro rfl
      simp only [List.all_cons, Bool.and_eq_true] at hd
      exact absurd hd.2.1 (by decide)
    simp [hexLiteral, hb]

theorem hexLiteral_of_head_ne {c : Char} (hc : c ≠ '0') : ∀ t : List Char, hexLiteral (c :: t) = none
  | [] => rfl
  | _ :: _ => by simp [hexLiteral, hc]

/-- A token with a character that is no digit is no decimal literal. -/
theorem decimalLiteral_of_not_digit {c : Char} {tok : List Char} (hm : c ∈ tok) (hc : isDigit c = false) :
    decimalLiteral tok = none := by
  have hall : tok.all isDigit = false := List.all_eq_false.mpr ⟨c, hm, by simp [hc]⟩
  simp [decimalLiteral, hall]

theorem symbolName_of_head_ne {c : Char} (hc : c ≠ labelMarker) (t : List Char) : symbolName (c :: t) = none := by
  simp [symbolName, hc]

theorem digit_ne_labelMarker {c : Char} (hc : isDigit c = true) : c ≠ labelMarker := by
  rintro rfl
  exact absurd hc (by decide)

section Marker
variable {cmt : List Char} (hcmt : legalMarker cmt = true)
include hcmt

/-- A token that starts with a digit or the label marker starts no comment and is no register name, so tests 4 to 7
decide its class. -/
theorem classify_of_head {c : Char} (hc : isDigit c = true ∨ c = labelMarker) (t : List Char) :
    classify cmt (c :: t) = ((hexLiteral (c :: t)).map Operand.memAddr <|>
      (decimalLiteral (c :: t)).map Operand.immediate <|> (symbolName (c :: t)).map Operand.symbol).getD .malformed := by
  have hpre : cmt.isPrefixOf (c :: t) = false := marker_not_prefix hcmt c t (hc.imp_right .inr)
  have hletter : isLetter c = false := by
    rcases hc with hc | rfl
    · exact digit_not_letter hc
    · decide
  cases hh : hexLiteral (c :: t) with
  | some a => simp [classify, hpre, hletter, hh]
  | none =>
    cases hd : decimalLiteral (c :: t) with
    | some v => simp [classify, hpre, hletter, hh, hd]
    | none => cases hs : symbolName (c :: t) <;> simp [classify, hpre, hletter, hh, hd, hs]

theorem classify_hexDigits {ds : List Char} (hne : ds ≠ []) (hd : ds.all isHexDigit = true) :
    classify cmt ('0' :: 'x' :: ds) = if numeral 16 hexDigitValue ds < 2 ^ 128
      then .memAddr (numeral 16 hexDigitValue ds) else .malformed := by
  have hdec : decimalLiteral ('0' :: 'x' :: ds) = none := decimalLiteral_of_not_digit (c := 'x') (by simp) (by decide)
  rw [classify_of_head hcmt (.inl (by decide)), hexLiteral_hexDigits hne hd, hdec, symbolName_of_head_ne (by decide)]
  split_ifs <;> rfl

theorem classify_digits {ds : List Char} (hne : ds ≠ []) (hd : ds.all isDigit = true) :
    classify cmt ds = if numeral 10 digitValue ds < 2 ^ 128
      then .immediate (numeral 10 digitValue ds) else .malformed := by
  have hdec := decimalLiteral_digits hne hd
  have hhex := hexLiteral_of_digits hd
  obtain ⟨c, t, rfl⟩ := List.exists_cons_of_ne_nil hne
  have hc : isDigit c = true := List.all_eq_true.mp hd c List.mem_cons_self
  rw [classify_of_head hcmt (.inl hc), hhex, hdec, symbolName_of_head_ne (digit_ne_labelMarker hc)]
  split_ifs <;> rfl

/-- Test 3: a token of letters is a register name in lower case. -/
theorem classify_letters {ds : List Char} (hne : ds ≠ []) (hd : ds.all isLetter = true) :
    classify cmt ds = .register (ds.map toLower) := by
  obtain ⟨c, t, rfl⟩ := List.exists_cons_of_ne_nil hne
  have hc : isLetter c = true := List.all_eq_true.mp hd c List.mem_cons_self
  rw [classify, if_neg (by simp), if_neg (by simp [marker_not_prefix hcmt c t (.inr (.inl hc))]), if_pos hd]

theorem classify_marker_letters {ds : List Char} (hne : ds ≠ []) (hd : ds.all isLetter = true) :
    classify cmt (labelMarker :: ds) = .symbol ds := by
  rw [classify_of_head hcmt (.inr rfl), hexLiteral_of_head_ne (by decide),
    decimalLiteral_of_not_digit List.mem_cons_self (by decide), symbolName_marker hne hd]
  rfl

/-- `0x` alone is malformed, for every legal marker (30_encoding.md R82). -/
theorem classify_bare_0x : classify cmt ['0', 'x'] = .malformed :=
  classify_of_head hcmt (.inl (by decide)) ['x']

end Marker

/-- Settles O5: the four token forms, each by the first test it passes. -/
theorem classifierSeparatesTokenForms : Obligations.ClassifierSeparatesTokenForms := fun _ _ hcmt hne =>
  ⟨classify_hexDigits hcmt hne, classify_digits hcmt hne, classify_letters hcmt hne, classify_marker_letters hcmt hne⟩

/-! ### Keywords (30_encoding.md R78, R80) -/

theorem opcodeOf_congr_toUpper {kw kw' : List Char} (h : kw.map toUpper = kw'.map toUpper) :
    opcodeOf kw = opcodeOf kw' := by
  simp only [opcodeOf, h]

theorem opcodeOf_eq_unrecognised {kw : List Char} (h : ∀ o ∈ namedOpcodes, kw.map toUpper ≠ o.keyword) :
    opcodeOf kw = .unrecognised := by
  have hfind : namedOpcodes.find? (fun o => o.keyword = kw.map toUpper) = none :=
    List.find?_eq_none.mpr fun o ho => by simpa using (h o ho).symm
  rw [opcodeOf, hfind]
  rfl

/-- Settles O4: `opcodeOf` sees a keyword in upper case only, where both spellings agree. -/
theorem keywordsMatchInAnyCase : Obligations.KeywordsMatchInAnyCase :=
  ⟨fun _ => ⟨opcodeOf_congr_toUpper (by simp [toUpper_toLower]), opcodeOf_congr_toUpper (by simp [toUpper_toUpper])⟩,
    fun o _ => (keyword_facts o).2.1, fun _ => opcodeOf_eq_unrecognised⟩

/-- Settles O1: each line is read by the model itself. -/
theorem writtenLinesDecode : Obligations.WrittenLinesDecode :=
  ⟨by decide, by decide, by decide, by decide, by decide, by decide⟩

end Sys2Proof
end

section
/-! SUPPORT. Decoding what the encoder writes (30_encoding.md R72, R76 to R82): the line is the keyword and the operand
tokens with one blank before each, so cutting it gives these tokens back, and each token classifies as its operand. -/

namespace Sys2Proof

/-! ### A line of tokens with one blank before each but the first -/

/-- Tokens with a blank before each. -/
def spaced (ts : List (List Char)) : List Char := ts.flatMap (' ' :: ·)

@[simp] theorem spaced_nil : spaced [] = [] := rfl
@[simp] theorem spaced_cons (t : List Char) (ts : List (List Char)) : spaced (t :: ts) = ' ' :: t ++ spaced ts := rfl
@[simp] theorem spaced_append (ts us : List (List Char)) : spaced (ts ++ us) = spaced ts ++ spaced us :=
  List.flatMap_append

theorem words_spaced : ∀ {t : List Char} {ts : List (List Char)}, isToken t → (∀ u ∈ ts, isToken u) →
    words (t ++ spaced ts) = t :: ts
  | t, [], ht, _ => by simpa using words_token ht
  | t, u :: us, ht, hts => by
    rw [List.forall_mem_cons] at hts
    rw [spaced_cons, List.cons_append, words_token_space ht (by decide), words_spaced hts.1 hts.2]

/-- No blank stands at either end of such a line. -/
theorem trim_spaced {t : List Char} {ts : List (List Char)} (ht : isToken t) (hts : ∀ u ∈ ts, isToken u) :
    trim (t ++ spaced ts) = t ++ spaced ts := by
  apply trim_of_ends
  · obtain ⟨c, cs, rfl⟩ := List.exists_cons_of_ne_nil ht.1
    rintro _ ⟨⟩
    exact ht.2 c List.mem_cons_self
  · obtain rfl | ⟨us, u, rfl⟩ := ts.eq_nil_or_concat'
    · simpa using getLast_token ht []
    · have hline : t ++ spaced (us ++ [u]) = (t ++ spaced us ++ [' ']) ++ u := by simp
      rw [hline]
      exact getLast_token (hts u (by simp)) _

theorem tokens_spaced {cmt t : List Char} {ts : List (List Char)} (ht : isToken t)
    (hts : ∀ u ∈ ts, isToken u ∧ cmt.isPrefixOf u = false) : tokens cmt (t ++ spaced ts) = some (t, ts) := by
  have htok : ∀ u ∈ ts, isToken u := fun u hu => (hts u hu).1
  have hall : ts.takeWhile (fun u => !cmt.isPrefixOf u) = ts :=
    List.takeWhile_eq_self_iff.mpr fun u hu => by simp [(hts u hu).2]
  rw [tokens, trim_spaced ht htok, words_spaced ht htok]
  simp only [hall]

/-- A line that starts with a letter is none of blank, comment and label (30_encoding.md R72). -/
theorem lineClass_of_letter {cmt : List Char} (hcmt : legalMarker cmt = true) {c : Char} {cs : List Char}
    (hc : isLetter c = true) (htrim : trim (c :: cs) = c :: cs) : lineClass cmt (c :: cs) = .capturable := by
  have hne : c ≠ labelMarker := by
    rintro rfl
    exact absurd hc (by decide)
  have hlabel : labelDecl (c :: cs) = none := by simp [labelDecl, hne]
  rw [lineClass, htrim, marker_not_prefix hcmt c cs (.inr (.inl hc)), hlabel]
  rfl

/-! ### The tokens of an operand -/

/-- The tokens an operand is written as: one, or none for the absent operand. -/
def Operand.tokens : Operand → List (List Char)
  | .none => []
  | .register n => [n]
  | .immediate v => [decimalText v]
  | .memAddr a => [hexText a]
  | .symbol n => [labelMarker :: n]
  | .malformed => [['0', 'x']]

@[simp] theorem Operand.tokens_none : Operand.none.tokens = [] := rfl

@[simp] theorem classify_nil (cmt : List Char) : classify cmt [] = .none := rfl

theorem operandText_eq_spaced (o : Operand) : operandText o = spaced o.tokens := by
  cases o <;> simp [operandText, Operand.tokens]

/-- The operand tokens of a text-level instruction, in order. -/
def SourceInstr.args (i : SourceInstr) : List (List Char) := i.a1.tokens ++ i.a2.tokens ++ i.a3.tokens

theorem encode_eq_spaced (c : Config) (i : Instr) : encode c i = i.opcode.keyword ++ spaced (i.source c).args := by
  simp [encode, operandText_eq_spaced, SourceInstr.args, Instr.source]

/-- Reading `t` back: it is one token, no comment, and classifies as `o`. -/
def readsAs (cmt t : List Char) (o : Operand) : Prop :=
  isToken t ∧ cmt.isPrefixOf t = false ∧ classify cmt t = o

/-- An operand whose tokens read back is absent, or has one token and reads as it. -/
theorem Operand.tokens_cases {cmt : List Char} : ∀ {o : Operand}, (∀ t ∈ o.tokens, readsAs cmt t o) →
    o = .none ∨ ∃ t, o.tokens = [t] ∧ classify cmt t = o
  | .none, _ => .inl rfl
  | .register _, h | .immediate _, h | .memAddr _, h | .symbol _, h | .malformed, h =>
    .inr ⟨_, rfl, (h _ (List.mem_singleton_self _)).2.2⟩

section Marker
variable {cmt : List Char} (hcmt : legalMarker cmt = true)
include hcmt

/-- A token that starts with a letter, a digit or the label marker starts no comment (30_encoding.md R82). -/
theorem readsAs_of_head {c : Char} {t : List Char} {o : Operand} (hc : isDigit c = true ∨ isLetter c = true ∨ c = '.')
    (hs : ∀ x ∈ c :: t, isSpace x = false) (h : classify cmt (c :: t) = o) : readsAs cmt (c :: t) o :=
  ⟨⟨by simp, hs⟩, marker_not_prefix hcmt c t hc, h⟩

theorem readsAs_register {n : List Char} (hne : n ≠ []) (hn : ∀ x ∈ n, isLetter x = true ∧ toLower x = x) :
    readsAs cmt n (.register n) := by
  have hlower : n.map toLower = n := (List.map_congr_left fun x hx => (hn x hx).2).trans (List.map_id' n)
  have hclass := classify_letters hcmt hne (List.all_eq_true.mpr fun x hx => (hn x hx).1)
  rw [hlower] at hclass
  obtain ⟨c, t, rfl⟩ := List.exists_cons_of_ne_nil hne
  exact readsAs_of_head hcmt (.inr (.inl (hn c List.mem_cons_self).1)) (fun x hx => letter_not_space (hn x hx).1) hclass

theorem readsAs_decimalText {n : Nat} (hn : n < 2 ^ 128) : readsAs cmt (decimalText n) (.immediate n) := by
  have hne : decimalText n ≠ [] := by simpa [decimalText] using digitsOf_ne_nil
  have hdigit : ∀ x ∈ decimalText n, isDigit x = true := by
    simpa [decimalText] using fun d hd => isDigit_digitChar (digitsOf_lt (by decide) hd)
  have hvalue : numeral 10 digitValue (decimalText n) = n :=
    numeral_digitsOf (by decide) (fun _ => digitValue_digitChar) (by omega)
  have hclass := classify_digits hcmt hne (List.all_eq_true.mpr hdigit)
  rw [hvalue, if_pos hn] at hclass
  obtain ⟨c, t, ht⟩ := List.exists_cons_of_ne_nil hne
  rw [ht] at hdigit hclass ⊢
  exact readsAs_of_head hcmt (.inl (hdigit c List.mem_cons_self)) (fun x hx => digit_not_space (hdigit x hx)) hclass

theorem readsAs_hexText {a : Nat} (ha : a < 2 ^ 128) : readsAs cmt (hexText a) (.memAddr a) := by
  have hne : (digitsOf 16 32 a).map digitChar ≠ [] := by simpa using digitsOf_ne_nil
  have hdigit : ∀ x ∈ (digitsOf 16 32 a).map digitChar, isHexDigit x = true := by
    simpa using fun d hd => isHexDigit_digitChar (digitsOf_lt (by decide) hd)
  have hvalue : numeral 16 hexDigitValue ((digitsOf 16 32 a).map digitChar) = a :=
    numeral_digitsOf (by decide) (fun _ => hexDigitValue_digitChar) (by omega)
  have hclass := classify_hexDigits hcmt hne (List.all_eq_true.mpr hdigit)
  rw [hvalue, if_pos ha] at hclass
  refine readsAs_of_head hcmt (.inl (by decide)) ?_ hclass
  rw [List.forall_mem_cons, List.forall_mem_cons]
  exact ⟨by decide, by decide, fun x hx => hexDigit_not_space (hdigit x hx)⟩

theorem readsAs_symbol {n : List Char} (hne : n ≠ []) (hn : n.all isLetter = true) :
    readsAs cmt (labelMarker :: n) (.symbol n) := by
  refine readsAs_of_head hcmt (.inr (.inr rfl)) ?_ (classify_marker_letters hcmt hne hn)
  rw [List.forall_mem_cons]
  exact ⟨by decide, fun x hx => letter_not_space (List.all_eq_true.mp hn x hx)⟩

theorem readsAs_malformed : readsAs cmt ['0', 'x'] .malformed :=
  readsAs_of_head hcmt (.inl (by decide)) (by simp [isSpace]) (classify_bare_0x hcmt)

end Marker

/-! ### The slots of a well-formed instruction -/

theorem sectionLetter_lower (w : Width) : ∀ x ∈ sectionLetter w, isLetter x = true ∧ toLower x = x := by
  cases w <;> simp [sectionLetter, isLetter, toLower]

theorem regName_ne_nil (c : Config) (r : RegRef) : regName c r ≠ [] := by
  obtain ⟨reg, w⟩ := r
  cases reg <;> simp [regName]

/-- A register's name is letters in lower case (10_state.md R22, R23). -/
theorem regName_lower (c : Config) (r : RegRef) : ∀ x ∈ regName c r, isLetter x = true ∧ toLower x = x := by
  obtain ⟨reg, w⟩ := r
  cases reg with
  | gpr i =>
    simp only [regName, List.forall_mem_cons]
    refine ⟨by decide, (gprLetter_facts i).symm, ?_⟩
    split_ifs
    · simp
    · exact sectionLetter_lower w
  | _ => simp [regName, isLetter, toLower]

theorem Config.legal_marker {c : Config} (h : c.legal = true) : legalMarker c.cmt = true := by
  simp only [Config.legal, Bool.and_eq_true] at h
  exact h.2

theorem Config.legal_memcap {c : Config} (h : c.legal = true) : c.memcap ≤ 2 ^ 64 := by
  simp only [Config.legal, Bool.and_eq_true, decide_eq_true_eq] at h
  omega

theorem Value.fits_lt {v : Value} (h : v.fits = true) : v.nat < 2 ^ 128 :=
  lt_of_lt_of_le (of_decide_eq_true h) (Machine.Width.two_pow_le v.width)

/-- Every token of a slot's operand reads back as that operand. -/
theorem Slot.readsAs_of_ok {c : Config} (hc : c.legal = true) {x : Slot} (hx : x.ok c = true) :
    ∀ t ∈ (x.operand c).tokens, readsAs c.cmt t (x.operand c) := by
  have hcmt := Config.legal_marker hc
  cases x with
  | none => simp [Slot.operand, Operand.tokens]
  | register r v => simpa [Slot.operand, Operand.tokens] using
      readsAs_register hcmt (regName_ne_nil c r) (regName_lower c r)
  | immediate v =>
    simp only [Slot.ok, Bool.and_eq_true] at hx
    simpa [Slot.operand, Operand.tokens] using readsAs_decimalText hcmt (Value.fits_lt hx.2)
  | memAddr a v =>
    simp only [Slot.ok, Bool.and_eq_true, decide_eq_true_eq] at hx
    have ha : a < 2 ^ 128 := by have := Config.legal_memcap hc; omega
    simpa [Slot.operand, Operand.tokens] using readsAs_hexText hcmt ha
  | symbol n =>
    simp only [Slot.ok, Bool.and_eq_true, Bool.not_eq_true', List.isEmpty_eq_false_iff] at hx
    simpa [Slot.operand, Operand.tokens] using readsAs_symbol hcmt hx.1 hx.2
  | malformed => simpa [Slot.operand, Operand.tokens] using readsAs_malformed hcmt

theorem Slot.operand_eq_none_iff {c : Config} {x : Slot} : x.operand c = .none ↔ x = .none := by
  cases x <;> simp [Slot.operand]

/-- An empty operand is followed by empty operands only (30_encoding.md R76). -/
def SourceInstr.inOrder (i : SourceInstr) : Prop := (i.a1 = .none → i.a2 = .none) ∧ (i.a2 = .none → i.a3 = .none)

/-- Every token of every operand reads back as that operand. -/
def SourceInstr.readsBack (cmt : List Char) (i : SourceInstr) : Prop :=
  (∀ t ∈ i.a1.tokens, readsAs cmt t i.a1) ∧ (∀ t ∈ i.a2.tokens, readsAs cmt t i.a2) ∧
    ∀ t ∈ i.a3.tokens, readsAs cmt t i.a3

theorem Instr.source_of_wellFormed {c : Config} (hc : c.legal = true) {i : Instr} (hi : i.wellFormed c = true) :
    (i.source c).inOrder ∧ (i.source c).readsBack c.cmt := by
  simp only [Instr.wellFormed, slotsInOrder, Bool.and_eq_true, Bool.or_eq_true, decide_eq_true_eq] at hi
  obtain ⟨⟨⟨⟨h12, h23⟩, h1⟩, h2⟩, h3⟩ := hi
  refine ⟨?_, Slot.readsAs_of_ok hc h1, Slot.readsAs_of_ok hc h2, Slot.readsAs_of_ok hc h3⟩
  simpa only [SourceInstr.inOrder, Instr.source, Slot.operand_eq_none_iff, imp_iff_not_or] using ⟨h12, h23⟩

/-- Operands written in order and read back stand at their places. -/
theorem SourceInstr.classify_args {cmt : List Char} {i : SourceInstr} (hord : i.inOrder) (hread : i.readsBack cmt) :
    classify cmt (i.args.getD 0 []) = i.a1 ∧ classify cmt (i.args.getD 1 []) = i.a2 ∧
      classify cmt (i.args.getD 2 []) = i.a3 := by
  obtain ⟨h12, h23⟩ := hord
  obtain ⟨h1, h2, h3⟩ := hread
  rcases Operand.tokens_cases h1 with e1 | ⟨t1, e1, c1⟩
  · have e2 := h12 e1
    simp [SourceInstr.args, e1, e2, h23 e2]
  · rcases Operand.tokens_cases h2 with e2 | ⟨t2, e2, c2⟩
    · simp [SourceInstr.args, e1, c1, e2, h23 e2]
    · rcases Operand.tokens_cases h3 with e3 | ⟨t3, e3, c3⟩
      · simp [SourceInstr.args, e1, c1, e2, c2, e3]
      · simp [SourceInstr.args, e1, c1, e2, c2, e3, c3]

theorem SourceInstr.args_tokens {cmt : List Char} {i : SourceInstr} (hread : i.readsBack cmt) :
    ∀ u ∈ i.args, isToken u ∧ cmt.isPrefixOf u = false := by
  obtain ⟨h1, h2, h3⟩ := hread
  have hread : ∀ u ∈ i.args, ∃ o, readsAs cmt u o := by
    simp only [SourceInstr.args, List.forall_mem_append]
    exact ⟨⟨fun u hu => ⟨_, h1 u hu⟩, fun u hu => ⟨_, h2 u hu⟩⟩, fun u hu => ⟨_, h3 u hu⟩⟩
  intro u hu
  obtain ⟨_, htok, hpre, -⟩ := hread u hu
  exact ⟨htok, hpre⟩

/-! ### The encoder's line -/

section Encode
variable {c : Config} (hc : c.legal = true) {i : Instr} (hi : i.wellFormed c = true)
include hc hi

/-- Decoding what the encoder writes gives the opcode and the operands back (30_encoding.md R76 to R82). -/
theorem parseLine_encode : parseLine c.cmt (encode c i) = some (i.source c) := by
  obtain ⟨hord, hread⟩ := Instr.source_of_wellFormed hc hi
  obtain ⟨hkw, hopc, -⟩ := keyword_facts i.opcode
  obtain ⟨h1, h2, h3⟩ := SourceInstr.classify_args hord hread
  rw [encode_eq_spaced, parseLine, tokens_spaced hkw (SourceInstr.args_tokens hread), Option.map_some, h1, h2, h3, hopc]
  rfl

/-- Fetch captures what the encoder writes (30_encoding.md R72). -/
theorem lineClass_encode : lineClass c.cmt (encode c i) = .capturable := by
  obtain ⟨-, hread⟩ := Instr.source_of_wellFormed hc hi
  obtain ⟨hkw, -, d, ds, hd, hletter⟩ := keyword_facts i.opcode
  have htrim := trim_spaced hkw fun u hu => (SourceInstr.args_tokens hread u hu).1
  rw [encode_eq_spaced]
  rw [hd, List.cons_append] at htrim ⊢
  exact lineClass_of_letter (Config.legal_marker hc) hletter htrim

end Encode

/-- Settles O2: Fetch captures the encoder's line, and decoding it gives the text-level form back. -/
theorem encodedLineDecodesBack : Obligations.EncodedLineDecodesBack := fun _ _ hc hi =>
  ⟨lineClass_encode hc hi, parseLine_encode hc hi⟩

end Sys2Proof
end

section
/-! SUPPORT. The label table (30_encoding.md R74, R75): the last line that declares a name, or nothing. -/

namespace Sys2Proof

/-- The line at index `k` declares `name`, and no later line does. -/
def lastDeclares (cmt name : List Char) (prog : List Line) (k : Nat) : Prop :=
  ∃ l, prog[k]? = some l ∧ lineClass cmt l = .label name ∧
    ∀ j l', k < j → prog[j]? = some l' → lineClass cmt l' ≠ .label name

section
variable {cmt name : List Char}

theorem lastDeclares_succ {l : Line} {ls : List Line} {k : Nat} :
    lastDeclares cmt name (l :: ls) (k + 1) ↔ lastDeclares cmt name ls k := by
  refine exists_congr fun m => and_congr_right' (and_congr_right' ⟨fun h j l' hj hl => ?_, fun h j l' hj hl => ?_⟩)
  · exact h (j + 1) l' (Nat.succ_lt_succ hj) hl
  · obtain ⟨j, rfl⟩ : ∃ i, j = i + 1 := ⟨j - 1, by omega⟩
    exact h j l' (Nat.lt_of_succ_lt_succ hj) hl

theorem lastDeclares_zero {l : Line} {ls : List Line} :
    lastDeclares cmt name (l :: ls) 0 ↔ lineClass cmt l = .label name ∧ ∀ m ∈ ls, lineClass cmt m ≠ .label name := by
  constructor
  · rintro ⟨_, ⟨⟩, hl, hlast⟩
    refine ⟨hl, fun m hm => ?_⟩
    obtain ⟨j, hj⟩ := List.mem_iff_getElem?.mp hm
    exact hlast (j + 1) m j.succ_pos hj
  · rintro ⟨hl, hnone⟩
    refine ⟨l, rfl, hl, fun j l' hj hl' => ?_⟩
    obtain ⟨j, rfl⟩ : ∃ i, j = i + 1 := ⟨j - 1, by omega⟩
    exact hnone l' (List.mem_of_getElem? hl')

theorem labelFrom_cons_of_some {l : Line} {ls : List Line} {i n : Nat} (h : labelFrom cmt name ls (i + 1) = some n) :
    labelFrom cmt name (l :: ls) i = some n := by
  simp [labelFrom, h]

theorem labelFrom_cons_of_none {l : Line} {ls : List Line} {i : Nat} (h : labelFrom cmt name ls (i + 1) = none) :
    labelFrom cmt name (l :: ls) i = if lineClass cmt l = .label name then some (i + 1) else none := by
  simp [labelFrom, h]

theorem labelFrom_eq_none_iff : ∀ {prog : List Line} {i : Nat},
    labelFrom cmt name prog i = none ↔ ∀ l ∈ prog, lineClass cmt l ≠ .label name
  | [], _ => by simp [labelFrom]
  | l :: ls, i => by
    rw [List.forall_mem_cons, ← labelFrom_eq_none_iff (prog := ls) (i := i + 1)]
    cases h : labelFrom cmt name ls (i + 1) with
    | none => simp [labelFrom_cons_of_none h]
    | some n => simp [labelFrom_cons_of_some h]

theorem labelFrom_eq_some_iff : ∀ {prog : List Line} {i n : Nat},
    labelFrom cmt name prog i = some n ↔ ∃ k, n = i + k + 1 ∧ lastDeclares cmt name prog k
  | [], _, _ => by simp [labelFrom, lastDeclares]
  | l :: ls, i, n => by
    have ih : labelFrom cmt name ls (i + 1) = some n ↔ ∃ k, n = i + (k + 1) + 1 ∧ lastDeclares cmt name ls k := by
      simp only [labelFrom_eq_some_iff, Nat.add_assoc, Nat.add_comm 1]
    rw [← Nat.or_exists_add_one, lastDeclares_zero]
    simp only [lastDeclares_succ]
    rw [← ih, ← labelFrom_eq_none_iff (i := i + 1)]
    cases h : labelFrom cmt name ls (i + 1) with
    | none => simp [labelFrom_cons_of_none h, and_comm, eq_comm]
    | some m => simp [labelFrom_cons_of_some h]

end

/-- Settles O7: the table is `labelFrom` from line 0. -/
theorem labelTableGivesLastDeclaringLine : Obligations.LabelTableGivesLastDeclaringLine := by
  intro cmt name prog
  refine ⟨fun n => ?_, labelFrom_eq_none_iff⟩
  simpa [labelTable, lastDeclares] using labelFrom_eq_some_iff (prog := prog) (i := 0)

end Sys2Proof
end

section
/-! SUPPORT. Tags a format does not allow (30_encoding.md R85): each meaning checks its tags before anything else. -/

namespace Sys2Proof.Machine

theorem sourceRIM_eq_none_iff {x : Slot} : sourceRIM x = none ↔ x.isRIM = false := by
  cases x <;> simp [sourceRIM, Slot.isRIM]

theorem sourceRI_eq_none_iff {x : Slot} : sourceRI x = none ↔ x.isRI = false := by
  cases x <;> simp [sourceRI, Slot.isRI]

/-- The two-source template checks both tags before anything else (42_arithmetic.md R139). -/
theorem alu2_disallowed (op : Width → Nat → Nat → Option AluResult) {second : Slot → Option Nat} {s1 s2 : Slot}
    (s3 : Slot) (s : State) (h : s1.isReg = false ∨ second s2 = none) :
    alu2 op second s1 s2 s3 s = .next (raise .execute s) := by
  cases s1 with
  | register r v => simp [alu2, h.resolve_left (by simp [Slot.isReg])]
  | _ => rfl

theorem execMov_disallowed {s1 s2 : Slot} (s : State) (h : s1.isRM = false ∨ s2.isRIM = false) :
    execMov s1 s2 s = .next (raise .execute s) := by
  cases s1 with
  | register | memAddr =>
    have h2 : sourceRIM s2 = none := sourceRIM_eq_none_iff.mpr (h.resolve_left (by simp [Slot.isRM]))
    simp [execMov, h2]
  | _ => rfl

theorem execNot_disallowed {s1 : Slot} (s2 : Slot) (s : State) (h : s1.isReg = false) :
    execNot s1 s2 s = .next (raise .execute s) := by
  cases s1 with
  | register => cases h
  | _ => rfl

/-- Both tags are checked before the access (45_load_store.md R166, R167). -/
theorem execLdSt_disallowed {s1 s2 : Slot} (s : State) (h : s1.isReg = false ∨ s2.isReg = false) :
    execLd s1 s2 s = .next (raise .execute s) ∧ execSt s1 s2 s = .next (raise .execute s) := by
  cases s1 with
  | register =>
    cases s2 with
    | register => simp [Slot.isReg] at h
    | _ => exact ⟨rfl, rfl⟩
  | _ => exact ⟨rfl, rfl⟩

theorem execWdm_disallowed {s1 s2 s3 : Slot} (s : State)
    (h : s1.isRIM = false ∨ s2.isRIM = false ∨ s3.isRIM = false) :
    execWdm s1 s2 s3 s = .next (raise .execute s) := by
  simp only [← sourceRIM_eq_none_iff] at h
  unfold execWdm
  split
  case h_1 h1 h2 h3 => simp [h1, h2, h3] at h
  case h_2 => rfl

/-- The jumps check the tag whether they are taken or not (47_control.md R176 to R178). -/
theorem execJumps_disallowed {s1 : Slot} (s : State) (h : s1.isSym = false) :
    execJmp s1 s = .next (raise .execute s) ∧ execJiz s1 s = .next (raise .execute s) ∧
      execJin s1 s = .next (raise .execute s) := by
  cases s1 with
  | symbol => cases h
  | _ => exact ⟨rfl, rfl, rfl⟩

/-- Settles O30: each meaning checks the tags of its format first. -/
theorem disallowedTagsRaiseExecute : Obligations.DisallowedTagsRaiseExecute := by
  intro i s h
  cases i with
  | unrecognised => rfl
  | mov a b c => exact execMov_disallowed s (Bool.and_eq_false_iff.mp h)
  | add a b c | sub a b c | mul a b c | div a b c | and a b c | or a b c | xor a b c =>
    simp only [exec, execAdd, execSub, execMul, execDiv, execAnd, execOr, execXor]
    exact alu2_disallowed _ c s ((Bool.and_eq_false_iff.mp h).imp_right sourceRIM_eq_none_iff.mpr)
  | shl a b c | shr a b c =>
    simp only [exec, execShl, execShr]
    exact alu2_disallowed _ c s ((Bool.and_eq_false_iff.mp h).imp_right sourceRI_eq_none_iff.mpr)
  | not a b c => exact execNot_disallowed b s h
  | ld a b c => exact (execLdSt_disallowed s (Bool.and_eq_false_iff.mp h)).1
  | st a b c => exact (execLdSt_disallowed s (Bool.and_eq_false_iff.mp h)).2
  | wdm a b c => exact execWdm_disallowed s (by simpa only [Instr.shapeOk, Bool.and_eq_false_iff, or_assoc] using h)
  | jmp a b c => exact (execJumps_disallowed s h).1
  | jiz a b c => exact (execJumps_disallowed s h).2.1
  | jin a b c => exact (execJumps_disallowed s h).2.2
  | halt a b c => cases h

end Sys2Proof.Machine
end

section
/-! SUPPORT. What one tick is, per cycle state (40_pipeline.md R102), under the launch premise (70_reset_and_hazards.md
R218); and the run of several steps. -/

namespace Sys2Proof.Machine

section
variable {s : State} (hlaunch : launchRefusal s.cfg s.prog = none)
include hlaunch

theorem step_startup (hc : s.cyc = .startup) : step s = .next (setupStep s) := by
  rw [step_launched hlaunch, tick, hc]

theorem step_fetch (hc : s.cyc = .fetch) : step s = .next (fetchStage s) := by
  rw [step_launched hlaunch, tick, hc]

theorem step_decode (hc : s.cyc = .decode) : step s = .next (decodeStage s) := by
  rw [step_launched hlaunch, tick, hc]

theorem step_execute (hc : s.cyc = .execute) : step s = executeStage s := by
  rw [step_launched hlaunch, tick, hc]

theorem step_autoStep (hc : s.cyc = .autoStep) : step s = runBatch s.cfg.k s := by
  rw [step_launched hlaunch, tick, hc]

theorem step_halt (hc : s.cyc = .halt) : step s = .next s := by
  rw [step_launched hlaunch, tick, hc]

end

theorem run_succ {s t : State} (h : step s = .next t) (n : Nat) : core.run (n + 1) s = core.run n t := by
  have hcore : core.step s = .next t := h
  simp only [Host.Core.run, hcore]

end Sys2Proof.Machine
end

section
/-! SUPPORT. Decode (40_pipeline.md R105 to R107): what each operand resolves to, what Decode does with the outcome, and
that it latches the instruction a line was written from. -/

namespace Sys2Proof.Machine

/-! ### One operand -/

/-- The Register File is populated after Startup (10_state.md R29, R42). -/
theorem lookup_eq_lookupName {s : State} (hs : s.cyc ≠ .startup) (n : List Char) :
    s.lookup n = lookupName s.cfg n := if_neg hs

theorem resolve_register_found {s : State} {n : List Char} {r : RegRef} (h : s.lookup n = some r) :
    resolve s (.register n) = .ok (.register r (s.readReg r)) := by
  simp [resolve, h]

theorem resolve_register_missing {s : State} {n : List Char} (h : s.lookup n = none) :
    resolve s (.register n) = .error .registerRead := by
  simp [resolve, h]

theorem resolve_memAddr_inRange {s : State} {a : Nat} (h : a < s.cfg.memcap) :
    resolve s (.memAddr a) = .ok (.memAddr a ⟨s.cfg.w, Memory.read s.mem a⟩) := by
  simp [resolve, memRead_inRange h]

theorem resolve_memAddr_outOfRange {s : State} {a : Nat} (h : s.cfg.memcap ≤ a) :
    resolve s (.memAddr a) = .error .memoryRead := by
  simp [resolve, memRead_outOfRange h]

theorem resolve_immediate (s : State) (v : Nat) :
    resolve s (.immediate v) = .ok (.immediate ⟨s.cfg.w, trunc s.cfg.w v⟩) := rfl

/-- Settles O40: a name goes through `lookupName`, an address against `MEMCAP`, a literal to `W` bits. -/
theorem operandsResolveAsTheRuleSays : Obligations.OperandsResolveAsTheRuleSays := by
  intro s hs
  refine ⟨fun n r h => resolve_register_found ((lookup_eq_lookupName hs n).trans h),
    fun n h => resolve_register_missing ((lookup_eq_lookupName hs n).trans h),
    fun a => resolve_memAddr_inRange, fun a => resolve_memAddr_outOfRange, fun v => ?_, fun n => rfl, rfl, rfl⟩
  rw [resolve_immediate, trunc_eq_setWidth]

/-- A value inside its width is its own truncation (00_scope.md R9). -/
theorem trunc_nat_of_fits {v : Value} (h : v.fits = true) : trunc v.width v.nat = v.bits :=
  BitVec.eq_of_toNat_eq (trunc_of_lt (of_decide_eq_true h))

/-- The operand of a slot with its current value resolves to that slot. -/
theorem resolve_operand_of_current {s : State} (hs : s.cyc ≠ .startup) {x : Slot} (hok : x.ok s.cfg = true)
    (hcur : Slot.current s x) : resolve s (x.operand s.cfg) = .ok x := by
  cases x with
  | none | symbol | malformed => rfl
  | register r v =>
    simp only [Slot.ok, Bool.and_eq_true] at hok
    have hname := (lookup_eq_lookupName hs _).trans (lookupName_regName hok.1.1)
    exact hcur ▸ resolve_register_found hname
  | immediate v =>
    simp only [Slot.ok, Bool.and_eq_true, decide_eq_true_eq] at hok
    obtain ⟨hw, hfits⟩ := hok
    rw [Slot.operand, resolve_immediate, ← hw, trunc_nat_of_fits hfits]
  | memAddr a v =>
    simp only [Slot.ok, Bool.and_eq_true, decide_eq_true_eq] at hok
    exact hcur ▸ resolve_memAddr_inRange hok.1.1

/-! ### The three slots and the stage -/

theorem resolveAll_of_ok {s : State} {src : SourceInstr} {s1 s2 s3 : Slot} (h1 : resolve s src.a1 = .ok s1)
    (h2 : resolve s src.a2 = .ok s2) (h3 : resolve s src.a3 = .ok s3) :
    resolveAll s src = .ok (src.opc.instr s1 s2 s3) := by
  simp [resolveAll, h1, h2, h3]

/-- Operand `src.a1`, `src.a2` or `src.a3` fails with `k`, and every operand before it resolves. -/
def FirstFailure (s : State) (src : SourceInstr) (k : ErrorKind) : Prop :=
  resolve s src.a1 = .error k ∨ ∃ s1, resolve s src.a1 = .ok s1 ∧
    (resolve s src.a2 = .error k ∨ ∃ s2, resolve s src.a2 = .ok s2 ∧ resolve s src.a3 = .error k)

/-- The first failure in slot order is the one reported (40_pipeline.md R107). -/
theorem resolveAll_of_firstFailure {s : State} {src : SourceInstr} {k : ErrorKind} (h : FirstFailure s src k) :
    resolveAll s src = .error k := by
  rcases h with h1 | ⟨s1, h1, h2 | ⟨s2, h2, h3⟩⟩
  · simp [resolveAll, h1]
  · simp [resolveAll, h1, h2]
  · simp [resolveAll, h1, h2, h3]

theorem decodeStage_of_ok {s : State} {src : SourceInstr} {i : Instr} (hp : parseLine s.cfg.cmt s.cap = some src)
    (hi : resolveAll s src = .ok i) : decodeStage s = { s with ir := i, cyc := .execute } := by
  simp [decodeStage, hp, hi]

theorem decodeStage_of_error {s : State} {src : SourceInstr} {k : ErrorKind}
    (hp : parseLine s.cfg.cmt s.cap = some src) (hk : resolveAll s src = .error k) :
    decodeStage s = decodeError k s := by
  simp [decodeStage, hp, hk]

/-- The operands of a well-formed instruction with current values resolve to its slots. -/
theorem resolveAll_source {s : State} (hs : s.cyc ≠ .startup) {i : Instr} (hi : i.wellFormed s.cfg = true)
    (hcur : Instr.current s i) : resolveAll s (i.source s.cfg) = .ok i := by
  obtain ⟨hcur1, hcur2, hcur3⟩ := hcur
  have h1 := resolve_operand_of_current hs (wellFormed_slot hi (.inl rfl)) hcur1
  have h2 := resolve_operand_of_current hs (wellFormed_slot hi (.inr (.inl rfl))) hcur2
  have h3 := resolve_operand_of_current hs (wellFormed_slot hi (.inr (.inr rfl))) hcur3
  rw [resolveAll_of_ok h1 h2 h3]
  exact congrArg Except.ok (Instr.opcode_instr i)

/-- Settles O3: the line decodes to the instruction's text-level form, whose operands resolve to its slots. -/
theorem decodeStageLatchesEncodedInstruction : Obligations.DecodeStageLatchesEncodedInstruction := by
  intro s i hlegal hc hi hcur hcap
  have hparse : parseLine s.cfg.cmt s.cap = some (i.source s.cfg) := hcap ▸ parseLine_encode hlegal hi
  exact decodeStage_of_ok hparse (resolveAll_source (by simp [hc]) hi hcur)

/-- Settles O41: the step is the Decode stage, whose outcome is that of `resolveAll`. -/
theorem decodeReportsTheFirstFailure : Obligations.DecodeReportsTheFirstFailure := by
  intro s src hlaunch hc hparse
  rw [step_decode hlaunch hc]
  refine ⟨fun s1 s2 s3 h1 h2 h3 => ?_, fun k hk => ?_⟩
  · rw [decodeStage_of_ok hparse (resolveAll_of_ok h1 h2 h3)]
  · rw [decodeStage_of_error hparse (resolveAll_of_firstFailure hk)]
    exact ⟨_, rfl⟩

end Sys2Proof.Machine
end

section
/-! SUPPORT. Execute: errors are precise (40_pipeline.md R111, R112; 60_exceptions.md R190), and the Execute tick
(40_pipeline.md R109). -/

namespace Sys2Proof.Machine

/-- The kinds an instruction raises (60_exceptions.md R186). -/
theorem ErrorCause.kind_mem {i : Instr} {s : State} {k : ErrorKind} (h : ErrorCause i s k) :
    k ∈ [ErrorKind.execute, .memoryRead, .memoryWrite, .display] := by
  cases h <;> simp

/-- An effect is an error, or it leaves `ERR`, and `CYC` unless it is HALT's. -/
theorem Effect.raises_or_completes {i : Instr} {s t : State} (h : Effect i s t) :
    (∃ k, t = raise k s ∧ k ∈ [ErrorKind.execute, .memoryRead, .memoryWrite, .display]) ∨
      (t.err = s.err ∧ (t.cyc = s.cyc ∨ (t.cyc = .halt ∧ i.opcode = .halt))) := by
  cases h with
  | error k hk => exact .inl ⟨k, rfl, hk.kind_mem⟩
  | stop ho => exact .inr ⟨rfl, .inr ⟨rfl, ho⟩⟩
  | alu | copy | store | pixel | jump | fallThrough => exact .inr ⟨by simp, .inl (by simp)⟩

/-- Settles O37: `exec` answers an effect, which raises or completes. -/
theorem instructionsRaiseOrComplete : Obligations.InstructionsRaiseOrComplete := by
  intro i s
  obtain ⟨t, ht, he⟩ := exec_effect i s
  exact ⟨t, ht, he.raises_or_completes⟩

/-- Settles O42: the step is the Execute stage, whose `CYC` is `afterExecute`'s. -/
theorem executeTickRunsTheLatchedInstruction : Obligations.ExecuteTickRunsTheLatchedInstruction := by
  intro s t hlaunch hc hexec
  rw [step_execute hlaunch hc, executeStage_eq hexec, afterExecute]

end Sys2Proof.Machine
end

section
/-! SUPPORT. Fetch (40_pipeline.md R104), and the value of `pc` as an operand after it (R115). -/

namespace Sys2Proof.Machine

/-- The line at `i` is the first Capturable one at or after `pc`. -/
structure NextCapturable (s : State) (i : Nat) (l : Line) : Prop where
  atOrAfter : s.pc.toNat ≤ i
  line : s.prog[i]? = some l
  capturable : lineClass s.cfg.cmt l = .capturable
  first : ∀ j l', s.pc.toNat ≤ j → j < i → s.prog[j]? = some l' → lineClass s.cfg.cmt l' ≠ .capturable

/-- No Capturable line is at or after `pc`. -/
def NoCapturable (s : State) : Prop :=
  ∀ j l, s.pc.toNat ≤ j → s.prog[j]? = some l → lineClass s.cfg.cmt l ≠ .capturable

theorem NextCapturable.not_noCapturable {s : State} {i : Nat} {l : Line} (h : NextCapturable s i l) :
    ¬ NoCapturable s := fun hno => hno i l h.atOrAfter h.line h.capturable

theorem NextCapturable.unique {s : State} {i i' : Nat} {l l' : Line} (h : NextCapturable s i l)
    (h' : NextCapturable s i' l') : i = i' ∧ l = l' := by
  have hi : i = i' := by
    rcases Nat.lt_trichotomy i i' with hlt | heq | hgt
    · exact absurd h.capturable (h'.first i l h.atOrAfter hlt h.line)
    · exact heq
    · exact absurd h'.capturable (h.first i' l' h'.atOrAfter hgt h'.line)
  subst hi
  exact ⟨rfl, Option.some.inj (h.line.symm.trans h'.line)⟩

theorem nextCapturable_at_pc {s : State} {l : Line} (hl : s.prog[s.pc.toNat]? = some l)
    (hcap : lineClass s.cfg.cmt l = .capturable) : NextCapturable s s.pc.toNat l where
  atOrAfter := Nat.le_refl _
  line := hl
  capturable := hcap
  first j _ hge hlt := by omega

theorem NextCapturable.lt_length {s : State} {i : Nat} {l : Line} (h : NextCapturable s i l) : i < s.prog.length :=
  (List.getElem?_eq_some_iff.mp h.line).1

/-- What Fetch can do, over the two predicates (40_pipeline.md R104). -/
theorem fetchStage_next_or_end (s : State) :
    (∃ i l, NextCapturable s i l ∧ fetchStage s = { s.setPc (i + 1) with cap := l, cyc := .decode }) ∨
      (NoCapturable s ∧
        fetchStage s = halt (if s.prog.length ≤ s.pc.toNat then s else s.setPc s.prog.length)) := by
  rcases fetchStage_cases s with ⟨i, l, hge, hl, hcap, hfirst, hf⟩ | hend
  · exact .inl ⟨i, l, ⟨hge, hl, hcap, hfirst⟩, hf⟩
  · exact .inr hend

theorem setPc_lineIndex {s : State} (hlaunch : launchRefusal s.cfg s.prog = none) {n : Nat} (hn : n ≤ s.prog.length) :
    s.setPc n = { s with pc := BitVec.ofNat 128 n } := by
  rw [State.setPc, trunc_lineIndex hlaunch hn]

theorem fetchStage_captures {s : State} (hlaunch : launchRefusal s.cfg s.prog = none) {i : Nat} {l : Line}
    (h : NextCapturable s i l) :
    fetchStage s = { s with pc := BitVec.ofNat 128 (i + 1), cap := l, cyc := .decode } := by
  rcases fetchStage_next_or_end s with ⟨i', l', h', hf⟩ | ⟨hno, -⟩
  · obtain ⟨rfl, rfl⟩ := h.unique h'
    rw [hf, setPc_lineIndex hlaunch h.lt_length]
  · exact absurd hno h.not_noCapturable

theorem fetchStage_ends {s : State} (hlaunch : launchRefusal s.cfg s.prog = none) (h : NoCapturable s) :
    fetchStage s = { s with pc := BitVec.ofNat 128 (max s.pc.toNat s.prog.length), cyc := .halt } := by
  rcases fetchStage_next_or_end s with ⟨i, l, h', -⟩ | ⟨-, hf⟩
  · exact absurd h h'.not_noCapturable
  · rw [hf]
    split_ifs with hpc
    · rw [Nat.max_eq_left hpc, BitVec.ofNat_toNat, BitVec.setWidth_eq]
      rfl
    · rw [Nat.max_eq_right (Nat.le_of_not_le hpc), setPc_lineIndex hlaunch (Nat.le_refl _)]
      rfl

/-- Settles O39: the two things Fetch can do, where no line index is truncated. -/
theorem fetchCapturesTheNextInstruction : Obligations.FetchCapturesTheNextInstruction := by
  intro s hlaunch hc
  rw [step_fetch hlaunch hc]
  refine ⟨fun i l hge hl hcap hfirst => ?_, fun hno => ?_⟩
  · rw [fetchStage_captures hlaunch ⟨hge, hl, hcap, hfirst⟩]
  · rw [fetchStage_ends hlaunch hno]

/-- A number below `2^W` reads back from `pc` (10_state.md R26). -/
theorem readReg_pc_nat {s : State} {n : Nat} (hn : n < 2 ^ s.cfg.w.bits) (hpc : s.pc = BitVec.ofNat 128 n) :
    (s.readReg ⟨.pc, s.cfg.w⟩).nat = n := by
  have hpow := Width.two_pow_le s.cfg.w
  rw [readReg_nat, State.cell, hpc, BitVec.toNat_ofNat, Nat.mod_eq_of_lt (Nat.lt_of_lt_of_le hn hpow),
    Nat.mod_eq_of_lt hn]

/-- Settles O44: after the tick `pc` holds the number of the line after the captured one. -/
theorem operandPcIsTheNextLineIndex : Obligations.OperandPcIsTheNextLineIndex := by
  rintro s t _ l hlaunch hc rfl hl hcap ht
  have hnext := nextCapturable_at_pc hl hcap
  rw [step_fetch hlaunch hc, fetchStage_captures hlaunch hnext] at ht
  cases ht
  refine ⟨_, resolve_register_found rfl, ?_, readReg_width ..⟩
  apply readReg_pc_nat
  · exact Nat.lt_of_le_of_lt hnext.lt_length (launch_length hlaunch)
  · rfl

end Sys2Proof.Machine
end

section
/-! SUPPORT. The sequencer: a launched machine goes on (40_pipeline.md R100), how Halt is reached and left (R114), an
instruction in three ticks (R115), and the AutoStep batch as single ticks (R113, R116). -/

namespace Sys2Proof.Machine

/-- Every tick answers a next state and keeps the configuration and the program. -/
theorem tick_kept (s : State) : ∃ t, tick s = .next t ∧ t.cfg = s.cfg ∧ t.prog = s.prog := by
  cases hc : s.cyc <;> simp only [tick, hc]
  case startup | halt => exact ⟨_, rfl, rfl, rfl⟩
  case fetch =>
    obtain ⟨hcfg, hprog, -⟩ := fetchStage_kept s
    exact ⟨_, rfl, hcfg, hprog⟩
  case decode =>
    obtain ⟨hcfg, hprog, -⟩ := decodeStage_kept s
    exact ⟨_, rfl, hcfg, hprog⟩
  case execute =>
    obtain ⟨t, ht, -, he⟩ := executeStage_next s
    obtain ⟨hcfg, hprog, -⟩ := he.frame
    obtain ⟨hcfg', hprog', -⟩ := afterExecute_kept t
    exact ⟨_, ht, hcfg'.trans hcfg, hprog'.trans hprog⟩
  case autoStep => exact runBatch_kept s.cfg.k s

/-- Settles O45: a step of a launched machine is a tick. -/
theorem launchedMachineAlwaysSteps : Obligations.LaunchedMachineAlwaysSteps := by
  intro s hlaunch
  rw [step_launched hlaunch]
  exact tick_kept s

theorem hostEvent_autoOn (s : State) : hostEvent .autoOn s = .next (autoOn s) := rfl

theorem hostEvent_autoOff (s : State) : hostEvent .autoOff s = .next (autoOff s) := rfl

/-- Settles O46: no event but LOAD and RESET is accepted in Halt. -/
theorem haltIsTerminal : Obligations.HaltIsTerminal := by
  intro s hlaunch hc
  have hon : autoOn s = s := if_neg (by simp [hc])
  have hoff : autoOff s = s := if_neg (by simp [hc])
  rw [hostEvent_tick, hostEvent_autoOn, hostEvent_autoOff, hon, hoff]
  exact ⟨step_halt hlaunch hc, rfl, rfl⟩

/-- Settles O52: the two switches are their own guards. -/
theorem autoStepSwitchesBetweenInstructions : Obligations.AutoStepSwitchesBetweenInstructions :=
  fun s => ⟨hostEvent_autoOn s, hostEvent_autoOff s⟩

/-! ### How a stage reaches Halt -/

theorem fetchStage_halts {s : State} (h : (fetchStage s).cyc = .halt) : NoCapturable s := by
  rcases fetchStage_next_or_end s with ⟨i, l, -, hf⟩ | ⟨hno, -⟩
  · simp [hf] at h
  · exact hno

theorem decodeStage_halts {s : State} (h : (decodeStage s).cyc = .halt) : (decodeStage s).err ≠ none := by
  obtain ⟨-, -, ⟨hx, -⟩ | ⟨-, k, hk⟩⟩ := decodeStage_kept s
  · simp [hx] at h
  · simp [hk]

/-- Execute reaches Halt by HALT or by an error. -/
theorem executeStage_halts {s t : State} (hc : s.cyc ≠ .halt) (ht : executeStage s = .next t) (h : t.cyc = .halt) :
    (t.err = s.err ∧ s.ir.opcode = .halt) ∨ t.err ≠ none := by
  obtain ⟨u, hu, -, he⟩ := executeStage_next s
  obtain ⟨-, -, herr, hcyc⟩ := afterExecute_kept u
  rw [hu] at ht
  cases ht
  rw [herr]
  rcases he.raises_or_completes with ⟨k, rfl, -⟩ | ⟨hkept, hsame | ⟨-, ho⟩⟩
  · exact .inr (by simp)
  · exact absurd (hsame ▸ hcyc.mp h) hc
  · exact .inl ⟨hkept, ho⟩

/-- Settles O47: one case per stage; the setup step goes to Fetch. -/
theorem haltIsReachedInThreeWays : Obligations.HaltIsReachedInThreeWays := by
  intro s t hlaunch hnh hna ht hh
  cases hc : s.cyc with
  | startup =>
    rw [step_startup hlaunch hc] at ht
    cases ht
    cases hh
  | fetch =>
    rw [step_fetch hlaunch hc] at ht
    cases ht
    obtain ⟨-, -, herr, -⟩ := fetchStage_kept s
    exact .inl ⟨rfl, herr, fetchStage_halts hh⟩
  | decode =>
    rw [step_decode hlaunch hc] at ht
    cases ht
    exact .inr (.inr ⟨.inl rfl, decodeStage_halts hh⟩)
  | execute =>
    rw [step_execute hlaunch hc] at ht
    rcases executeStage_halts hnh ht hh with ⟨herr, ho⟩ | herr
    · exact .inr (.inl ⟨rfl, herr, ho⟩)
    · exact .inr (.inr ⟨.inr rfl, herr⟩)
  | autoStep => exact absurd hc hna
  | halt => exact absurd hc hnh

/-! ### Three ticks -/

/-- From Fetch, three ticks are the three stages while the first two do not halt. -/
theorem run_three {s : State} (hlaunch : launchRefusal s.cfg s.prog = none) (hc : s.cyc = .fetch)
    (hf : (fetchStage s).cyc = .decode) (hd : (decodeStage (fetchStage s)).cyc = .execute) :
    core.run 3 s = executeStage (decodeStage (fetchStage s)) := by
  obtain ⟨hcfg, hprog, -⟩ := fetchStage_kept s
  obtain ⟨hcfg', hprog', -⟩ := decodeStage_kept (fetchStage s)
  have hlaunch1 : launchRefusal (fetchStage s).cfg (fetchStage s).prog = none := by rw [hcfg, hprog, hlaunch]
  have hlaunch2 : launchRefusal (decodeStage (fetchStage s)).cfg (decodeStage (fetchStage s)).prog = none := by
    rw [hcfg', hprog', hlaunch1]
  obtain ⟨t, ht, -⟩ := executeStage_next (decodeStage (fetchStage s))
  rw [run_succ (step_fetch hlaunch hc), run_succ (step_decode hlaunch1 hf),
    run_succ ((step_execute hlaunch2 hd).trans ht), ht]
  rfl

/-- Settles O43: the three stages, each with the outcome the premises name. -/
theorem threeTicksRunTheInstructionAtPc : Obligations.ThreeTicksRunTheInstructionAtPc := by
  rintro s s1 t l src i hlaunch hc hl hcap hparse rfl hresolve hexec
  have hf := fetchStage_captures hlaunch (nextCapturable_at_pc hl hcap)
  have hd := decodeStage_of_ok hparse hresolve
  rw [run_three hlaunch hc (by rw [hf]) (by rw [hf, hd]), hf, hd, executeStage_eq hexec]
  rfl

/-! ### The batch -/

theorem runCycle_cyc (s : State) (c : Cycle) : runCycle { s with cyc := c } = runCycle s := by
  simp only [runCycle, fetchStage_cyc]

theorem runBatch_cyc (n : Nat) (s : State) (c : Cycle) : runBatch n { s with cyc := c } = runBatch n s := by
  cases n with
  | zero => rfl
  | succ n => simp only [runBatch, runCycle_cyc]

/-- A whole cycle is three single ticks, or fewer that end in Halt (40_pipeline.md R113). -/
theorem runCycle_ticks {s t : State} (hlaunch : launchRefusal s.cfg s.prog = none) (hc : s.cyc = .fetch)
    (ht : runCycle s = .next t) :
    ∃ n ≤ 3, core.run n s = .next t ∧ (t.cyc = .halt ∨ (t.cyc = .fetch ∧ n = 3)) := by
  obtain ⟨hcfg, hprog, -, hfcyc⟩ := fetchStage_kept s
  have hlaunch1 : launchRefusal (fetchStage s).cfg (fetchStage s).prog = none := by rw [hcfg, hprog, hlaunch]
  simp only [runCycle] at ht
  split_ifs at ht with hfh hdh
  · exact ⟨1, by decide, (run_succ (step_fetch hlaunch hc) 0).trans ht, .inl (Host.Outcome.next.inj ht ▸ hfh)⟩
  · have hf := hfcyc.resolve_right hfh
    refine ⟨2, by decide, ?_, .inl (Host.Outcome.next.inj ht ▸ hdh)⟩
    rw [run_succ (step_fetch hlaunch hc), run_succ (step_decode hlaunch1 hf)]
    exact ht
  · have hf := hfcyc.resolve_right hfh
    obtain ⟨-, -, ⟨hd, -⟩ | ⟨hd, -⟩⟩ := decodeStage_kept (fetchStage s)
    · refine ⟨3, Nat.le_refl 3, (run_three hlaunch hc hf hd).trans ht, ?_⟩
      obtain ⟨u, hu, -⟩ := executeStage_next (decodeStage (fetchStage s))
      rw [hu] at ht
      cases ht
      by_cases hh : u.cyc = .halt
      · exact .inl (by rw [afterExecute_of_halt u hh, hh])
      · exact .inr ⟨by rw [afterExecute_of_not_halt u hh], rfl⟩
    · exact absurd hd hdh

/-- A batch of `k` cycles from Fetch is at most `3k` single ticks, by induction on the cycles that are left. -/
theorem runBatch_ticks : ∀ {k : Nat} {s t : State}, launchRefusal s.cfg s.prog = none → s.cyc = .fetch →
    runBatch k s = .next t → ∃ (n : Nat) (u : State), n ≤ 3 * k ∧ core.run n s = .next u ∧
      ((u.cyc = .halt ∧ t = u) ∨ (u.cyc = .fetch ∧ n = 3 * k ∧ t = { u with cyc := .autoStep }))
  | 0, s, _, _, hc, rfl => ⟨0, s, Nat.le_refl 0, rfl, .inr ⟨hc, rfl, rfl⟩⟩
  | k + 1, s, t, hlaunch, hc, ht => by
    obtain ⟨v, hv, hcfg, hprog⟩ := runCycle_kept s
    obtain ⟨m, hm, hrun, hcyc⟩ := runCycle_ticks hlaunch hc hv
    simp only [runBatch, hv] at ht
    split_ifs at ht with hh
    · cases ht
      exact ⟨m, t, by omega, hrun, .inl ⟨hh, rfl⟩⟩
    · obtain ⟨hfetch, rfl⟩ := hcyc.resolve_left hh
      obtain ⟨n, u, hn, hrun', hend⟩ := runBatch_ticks (by rw [hcfg, hprog, hlaunch]) hfetch ht
      refine ⟨3 + n, u, by omega, (run_add core 3 n s v hrun).trans hrun', hend.imp_right ?_⟩
      rintro ⟨huc, hnk, htu⟩
      exact ⟨huc, by omega, htu⟩

/-- Settles O48: the tick is a batch of `K` cycles, which does not look at `CYC`. -/
theorem autoStepTickIsSingleTicks : Obligations.AutoStepTickIsSingleTicks := by
  intro s t hlaunch hc ht
  rw [step_autoStep hlaunch hc, ← runBatch_cyc s.cfg.k s .fetch] at ht
  exact runBatch_ticks hlaunch rfl ht

end Sys2Proof.Machine
end

section
/-! SUPPORT. Every event of the host keeps the invariant (40_pipeline.md R102; 70_reset_and_hazards.md R215, R217). -/

namespace Sys2Proof.Machine

theorem State.Inv.autoOn {s : State} (h : State.Inv s) : State.Inv (autoOn s) := by
  simp only [Machine.autoOn]
  split_ifs with hc
  · exact h.withCyc (h.err_none (by simp [hc])) (by decide) (by decide)
  · exact h

theorem State.Inv.autoOff {s : State} (h : State.Inv s) : State.Inv (autoOff s) := by
  simp only [Machine.autoOff]
  split_ifs with hc
  · exact h.withCyc (h.err_none (by simp [hc])) (by decide) (by decide)
  · exact h

/-- LOAD leaves the machine before any latch is read (70_reset_and_hazards.md R217). -/
theorem loadLines_cyc (prog : List Line) (s : State) :
    (loadLines prog s).cyc = .startup ∨ (loadLines prog s).cyc = .fetch := by
  simp only [loadLines]
  split_ifs
  · exact .inl rfl
  · exact .inr rfl

/-- A program with a meaning, of lines without a line feed, may be loaded into any state with the invariant. -/
theorem State.Inv.loadLines {s : State} (h : State.Inv s) {prog : List Line}
    (hlaunch : launchRefusal s.cfg prog = none) (hlines : ∀ l ∈ prog, ∀ c ∈ l, c.toNat ≠ 10) :
    State.Inv (loadLines prog s) where
  __ := h
  launch := hlaunch
  lines := hlines
  pcFits := by
    simp only [Machine.loadLines]
    split_ifs
    · exact h.pcFits
    · exact fitsWord_zero s.cfg
  capLine hc := by rcases loadLines_cyc prog s with hl | hl <;> cases hl.symm.trans hc
  irFits hc := by rcases loadLines_cyc prog s with hl | hl <;> cases hl.symm.trans hc
  errHalts he := absurd rfl he

/-- The invariant speaks of no counter. -/
theorem State.Inv.withDraws {s : State} (h : State.Inv s) (n : Nat) : State.Inv { s with draws := n } := { h with }

theorem launchRefusal_legal {c : Config} {prog : List Line} (h : launchRefusal c prog = none) : c.legal = true :=
  (launch_iff.mp h).1

/-- Settles O55: one case per event; LOAD and RESET change the state only when the launch has a meaning. -/
theorem hostEventsKeepTheInvariant : Obligations.HostEventsKeepTheInvariant := by
  intro e s t h ht
  cases e with
  | tick => exact stepKeepsTheInvariant s t h ht
  | autoOn =>
    cases ht
    exact h.autoOn
  | autoOff =>
    cases ht
    exact h.autoOff
  | load text =>
    rw [hostEvent_load] at ht
    cases hlaunch : launchRefusal s.cfg (cutLines (textOf text)) with
    | some r => simp [hlaunch] at ht
    | none =>
      simp only [hlaunch, Host.Outcome.next.injEq] at ht
      exact ht ▸ h.loadLines hlaunch fun l hl c hc => (cutLines_mem _ l c hl hc).2
  | reset c =>
    rw [hostEvent_reset] at ht
    cases hlaunch : launchRefusal c [] with
    | some r => simp [hlaunch] at ht
    | none =>
      simp only [hlaunch, Host.Outcome.next.injEq] at ht
      exact ht ▸ (inv_resetWith (launchRefusal_legal hlaunch)).withDraws s.draws

end Sys2Proof.Machine
end

section
/-! SUPPORT. The move family and its frames: MOV's two destinations (41_move.md R131), and what a copy into a register
(MOV, LD) and a store into memory (MOV, ST) leave as it was (45_load_store.md R166, R167; 20_memory.md R53). -/

namespace Sys2Proof.Machine

/-! ### MOV (41_move.md R131) -/

section Mov
variable {s : State} {s2 : Slot} {n : Nat}

theorem execMov_register (r : RegRef) (v : Value) (h : sourceRIM s2 = some n) :
    execMov (.register r v) s2 s = .next (s.writeReg r (trunc r.width n)) := by simp [execMov, h]

theorem execMov_memAddr {a : Nat} (v : Value) (h : sourceRIM s2 = some n) (ha : a < s.cfg.memcap) :
    execMov (.memAddr a v) s2 s = .next { s with mem := Memory.write s.mem a (trunc s.cfg.w n) } := by
  simp [execMov, h, memWrite_inRange _ ha]

end Mov

/-- Settles O13: an allowed source is copied through the view, and any other tag is a disallowed one. -/
theorem movToRegisterCopies : Obligations.MovToRegisterCopies := fun r v _ _ s =>
  ⟨fun n hn => trunc_eq_setWidth r.width n ▸ execMov_register r v hn,
    fun h => disallowedTagsRaiseExecute _ s h⟩

/-- Settles O14: in range MOV is one write of the memory, with its read-back and its frame. -/
theorem movToMemoryStores : Obligations.MovToMemoryStores := fun a v _ _ s n hwf ha hn =>
  ⟨_, execMov_memAddr v hn ha, (Memory.read_write_same hwf).trans (trunc_eq_setWidth s.cfg.w n), memWrite_frame s a _⟩

/-! ### Frames of the copies and the stores -/

/-- A copy into a register raises or writes that register through its view. -/
theorem Effect.copy_cases {i : Instr} {s t : State} (h : Effect i s t) (ho : i.opcode = .mov ∨ i.opcode = .ld)
    {r : RegRef} {v : Value} (hr : i.slots.1 = .register r v) :
    (∃ k, t = raise k s) ∨ ∃ x, t = s.writeReg r x := by
  cases h with
  | error k => exact .inl ⟨k, rfl⟩
  | copy r' v' n _ hr' =>
    rw [hr] at hr'
    cases hr'
    exact .inr ⟨_, rfl⟩
  | store a n _ hs => exact absurd hs (by rcases ho with ho | ho <;> simp [ho, hr])
  | alu _ _ _ ha => exact absurd ha (by rcases ho with ho | ho <;> simp [ho, Opcode.isAlu])
  | stop hi | pixel _ hi | jump _ hi | fallThrough hi => exact absurd hi (by rcases ho with ho | ho <;> simp [ho])

/-- The instruction stores at address `a`: MOV at its operand's own address, ST at its address register's value. -/
def Instr.storesAt (i : Instr) (a : Nat) : Prop :=
  (i.opcode = .mov ∧ ∃ v, i.slots.1 = .memAddr a v) ∨ (i.opcode = .st ∧ ∃ r v, i.slots.1 = .register r v ∧ a = v.nat)

theorem Instr.storesAt_unique {i : Instr} {a a' : Nat} (h : Instr.storesAt i a) (h' : Instr.storesAt i a') :
    a = a' := by
  rcases h with ⟨ho, v, hv⟩ | ⟨ho, r, v, hv, rfl⟩
  · simpa [Instr.storesAt, ho, hv] using h'
  · obtain ⟨-, v', rfl, rfl⟩ : i.opcode = .st ∧ ∃ v', v = v' ∧ a' = v'.nat := by
      simpa [Instr.storesAt, ho, hv] using h'
    rfl

/-- A store raises or writes the one cell at its address. -/
theorem Effect.store_cases {i : Instr} {s t : State} (h : Effect i s t) {a : Nat} (hi : Instr.storesAt i a) :
    (∃ k, t = raise k s) ∨ ∃ x, t = { s with mem := Memory.write s.mem a x } := by
  have ho : i.opcode = .mov ∨ i.opcode = .st := hi.imp And.left And.left
  cases h with
  | error k => exact .inl ⟨k, rfl⟩
  | store a' n _ hi' =>
    obtain rfl := Instr.storesAt_unique hi hi'
    exact .inr ⟨_, rfl⟩
  | copy r v _ hc hr => exact absurd hi (by rcases hc with hc | hc <;> simp [Instr.storesAt, hc, hr])
  | alu _ _ _ ha => exact absurd ha (by rcases ho with ho | ho <;> simp [ho, Opcode.isAlu])
  | stop hn | pixel _ hn | jump _ hn | fallThrough hn => exact absurd hn (by rcases ho with ho | ho <;> simp [ho])

theorem Effect.store_frame {i : Instr} {s t : State} (h : Effect i s t) {a : Nat} (hi : Instr.storesAt i a) :
    (∃ k, t = raise k s) ∨ Frame [] [a] s t :=
  (h.store_cases hi).imp_right fun ⟨x, hx⟩ => hx ▸ memWrite_frame s a x

/-- Settles O34: MOV to a register and LD are one write through the view, whose frame and upper bits are known. -/
theorem copyToRegisterFrame : Obligations.CopyToRegisterFrame := by
  intro r v s2 s3 s t i hi hexec
  have hcopy : (i.opcode = .mov ∨ i.opcode = .ld) ∧ i.slots.1 = .register r v := by
    simp only [List.mem_cons, List.not_mem_nil, or_false] at hi
    rcases hi with rfl | rfl
    · exact ⟨.inl rfl, rfl⟩
    · exact ⟨.inr rfl, rfl⟩
  exact ((effect_of_exec hexec).copy_cases hcopy.1 hcopy.2).imp_right fun ⟨x, hx⟩ =>
    hx ▸ ⟨writeReg_frame s r x, writeReg_high s r x⟩

/-- Settles O35: both instructions are stores, at the operand's address and at the address register's value. -/
theorem storeFrame : Obligations.StoreFrame :=
  ⟨fun _ v _ _ _ _ hexec => (effect_of_exec hexec).store_frame (.inl ⟨rfl, v, rfl⟩),
    fun ra va _ _ _ _ hexec => (effect_of_exec hexec).store_frame (.inr ⟨rfl, ra, va, rfl, rfl⟩)⟩

end Sys2Proof.Machine
end

section
/-! SUPPORT. The arithmetic instructions (42_arithmetic.md): each operation in Lean's fixed-width arithmetic (R140 to
R143), the whole next state of the two-source template at the destination's width (R135 to R139), and its frame. -/

namespace Sys2Proof.Machine

/-! ### The operations at a width (42_arithmetic.md R140 to R143) -/

section Operations
variable {w : Width} (a b : BitVec w.bits)

/-- A signed sum overflows when both addends have one sign and the sum has the other. -/
theorem addOp_toNat : addOp w a.toNat b.toNat =
    { r := (a + b).toNat, c := BitVec.uaddOverflow a b, v := BitVec.saddOverflow a b } := by
  rw [addOp, ← BitVec.toNat_add, msb_bits_toNat, msb_bits_toNat, msb_bits_toNat, BitVec.saddOverflow_eq]
  rfl

/-- A signed difference overflows when the operands differ in sign and the difference is not signed as the first. -/
theorem subOp_toNat : subOp w a.toNat b.toNat =
    { r := (a - b).toNat, c := BitVec.usubOverflow a b, v := BitVec.ssubOverflow a b } := by
  have hr : (a.toNat + 2 ^ w.bits - b.toNat) % 2 ^ w.bits = (a - b).toNat := by
    rw [BitVec.toNat_sub, Nat.add_comm a.toNat, Nat.sub_add_comm b.isLt.le]
  rw [subOp, hr, msb_bits_toNat, msb_bits_toNat, msb_bits_toNat, BitVec.ssubOverflow_eq]
  have hv : ∀ x y z : Bool, ((x != y) && (z != x)) = ((!x && y && z) || (x && !y && !z)) := by decide
  rw [hv]
  rfl

theorem mulOp_toNat : mulOp w a.toNat b.toNat = plain (a * b).toNat := by
  rw [mulOp, BitVec.toNat_mul]

theorem divOp_toNat (hb : b ≠ 0) : divOp w a.toNat b.toNat = some (plain (a.udiv b).toNat) := by
  have hn : b.toNat ≠ 0 := fun h => hb (BitVec.eq_of_toNat_eq h)
  rw [divOp, if_neg hn, BitVec.udiv_eq, BitVec.toNat_udiv]

end Operations

/-! ### The nine instructions over the two-source template (42_arithmetic.md R139) -/

section Template
variable (s1 s2 s3 : Slot) (s : State)

theorem exec_add : exec (.add s1 s2 s3) s = alu2 (fun w a b => some (addOp w a b)) sourceRIM s1 s2 s3 s := rfl

theorem exec_sub : exec (.sub s1 s2 s3) s = alu2 (fun w a b => some (subOp w a b)) sourceRIM s1 s2 s3 s := rfl

theorem exec_mul : exec (.mul s1 s2 s3) s = alu2 (fun w a b => some (mulOp w a b)) sourceRIM s1 s2 s3 s := rfl

theorem exec_div : exec (.div s1 s2 s3) s = alu2 divOp sourceRIM s1 s2 s3 s := rfl

theorem exec_and : exec (.and s1 s2 s3) s = alu2 (fun w a b => some (andOp w a b)) sourceRIM s1 s2 s3 s := rfl

theorem exec_or : exec (.or s1 s2 s3) s = alu2 (fun w a b => some (orOp w a b)) sourceRIM s1 s2 s3 s := rfl

theorem exec_xor : exec (.xor s1 s2 s3) s = alu2 (fun w a b => some (xorOp w a b)) sourceRIM s1 s2 s3 s := rfl

theorem exec_shl : exec (.shl s1 s2 s3) s = alu2 (fun w a b => some (shlOp w a b)) sourceRI s1 s2 s3 s := rfl

theorem exec_shr : exec (.shr s1 s2 s3) s = alu2 (fun w a b => some (shrOp w a b)) sourceRI s1 s2 s3 s := rfl

end Template

/-! ### The template's next state at the destination's width (42_arithmetic.md R135, R136, R139) -/

section TwoSource
variable {op : Width → Nat → Nat → Option AluResult} {second : Slot → Option Nat} {r1 : RegRef} {v1 : Value}
  {s2 s3 : Slot} {n2 : Nat} {s : State}

/-- The template's next state when the operation reports an `N`-bit result on the truncated operands. -/
theorem alu2_next_bits (h2 : second s2 = some n2) {r : BitVec (destination s3 r1).width.bits} {c v : Bool}
    (hop : op (destination s3 r1).width (BitVec.ofNat (destination s3 r1).width.bits v1.nat).toNat
      (BitVec.ofNat (destination s3 r1).width.bits n2).toNat = some { r := r.toNat, c := c, v := v }) :
    alu2 op second (.register r1 v1) s2 s3 s = .next
      { s.writeReg (destination s3 r1) (r.setWidth 128) with fz := r == 0, fn := r.msb, fc := c, fo := v } := by
  rw [BitVec.toNat_ofNat, BitVec.toNat_ofNat] at hop
  rw [alu2_next h2 hop, aluWrite_eq_bits _ _ _ r rfl]

/-- The template's error when the operation reports none (42_arithmetic.md R143). -/
theorem alu2_raise (h2 : second s2 = some n2)
    (hop : op (destination s3 r1).width (v1.nat % 2 ^ (destination s3 r1).width.bits)
      (n2 % 2 ^ (destination s3 r1).width.bits) = none) :
    alu2 op second (.register r1 v1) s2 s3 s = .next (raise .execute s) := by
  simp [alu2, h2, hop]

end TwoSource

/-- Settles O15: the template over the sum. -/
theorem addWritesSumAndFlags : Obligations.AddWritesSumAndFlags := fun _ _ _ _ _ _ h2 =>
  (exec_add ..).trans (alu2_next_bits h2 (congrArg some (addOp_toNat _ _)))

/-- Settles O16: the template over the difference. -/
theorem subWritesDifferenceAndFlags : Obligations.SubWritesDifferenceAndFlags := fun _ _ _ _ _ _ h2 =>
  (exec_sub ..).trans (alu2_next_bits h2 (congrArg some (subOp_toNat _ _)))

/-- Settles O17: the template over the product, which leaves carry and overflow 0. -/
theorem mulWritesLowProduct : Obligations.MulWritesLowProduct := fun _ _ _ _ _ _ h2 =>
  (exec_mul ..).trans (alu2_next_bits h2 (congrArg some (mulOp_toNat _ _)))

/-- Settles O18: the quotient exists exactly when the truncated divisor is not 0. -/
theorem divWritesQuotientOrRaises : Obligations.DivWritesQuotientOrRaises := by
  intro r1 v1 s2 s3 n2 s h2 d b r
  refine ⟨fun hb => (exec_div ..).trans (alu2_next_bits h2 (divOp_toNat _ b hb)),
    fun hb => (exec_div ..).trans (alu2_raise h2 ?_)⟩
  have hn : n2 % 2 ^ d.width.bits = 0 := by simpa [b] using congrArg BitVec.toNat hb
  exact if_pos hn

/-! ### A flag as destination (42_arithmetic.md R138) -/

section OneBit
variable (a b : Bool)

theorem addOp_w1 : addOp .w1 a.toNat b.toNat = { r := (Bool.xor a b).toNat, c := a && b, v := a && b } := by
  revert a b; decide

theorem subOp_w1 : subOp .w1 a.toNat b.toNat = { r := (Bool.xor a b).toNat, c := !a && b, v := !a && b } := by
  revert a b; decide

theorem mulOp_w1 : mulOp .w1 a.toNat b.toNat = plain (a && b).toNat := by revert a b; decide

theorem divOp_w1_true : divOp .w1 a.toNat 1 = some (plain a.toNat) := by revert a; decide

theorem andOp_w1 : andOp .w1 a.toNat b.toNat = plain (a && b).toNat := by revert a b; decide

theorem orOp_w1 : orOp .w1 a.toNat b.toNat = plain (a || b).toNat := by revert a b; decide

theorem xorOp_w1 : xorOp .w1 a.toNat b.toNat = plain (Bool.xor a b).toNat := by revert a b; decide

theorem notOp_w1 : notOp .w1 a.toNat = plain (!a).toNat := by revert a; decide

/-- The count of a 1-bit shift is always 0 (44_shift.md R160). -/
theorem shlOp_w1 : shlOp .w1 a.toNat b.toNat = plain a.toNat := by revert a b; decide

theorem shrOp_w1 : shrOp .w1 a.toNat b.toNat = plain a.toNat := by revert a b; decide

end OneBit

theorem mod_two_eq_toNat (n : Nat) : n % 2 = (decide (n % 2 = 1)).toNat := by
  rcases Nat.mod_two_eq_zero_or_one n with h | h <;> simp [h]

/-- A 1-bit result in a flag: what stays is the flag update, which sees the result as 0 or 1. -/
theorem aluWrite_flag_bit (s : State) {f : Reg} (hf : f ∈ flagRegs) (r c v : Bool) :
    s.aluWrite ⟨f, .w1⟩ { r := r.toNat, c := c, v := v } = { s with fz := !r, fn := r, fc := c, fo := v } := by
  rw [aluWrite_flag s hf]
  cases r <;> simp [State.setFlags, msb, Width.bits]

section FlagDestination
variable {f : Reg} (hf : f ∈ flagRegs) {r1 : RegRef} {v1 : Value} {s2 s3 : Slot} {s : State}
include hf

/-- The template into a flag, with both operands as bits. -/
theorem alu2_flag {op : Width → Nat → Nat → Option AluResult} {second : Slot → Option Nat} {n2 : Nat}
    (h2 : second s2 = some n2) (hd : destination s3 r1 = ⟨f, .w1⟩) {r c v : Bool}
    (hop : op .w1 (decide (v1.nat % 2 = 1)).toNat (decide (n2 % 2 = 1)).toNat =
      some { r := r.toNat, c := c, v := v }) :
    alu2 op second (.register r1 v1) s2 s3 s = .next { s with fz := !r, fn := r, fc := c, fo := v } := by
  rw [← mod_two_eq_toNat, ← mod_two_eq_toNat] at hop
  rw [alu2_next h2 (by rw [hd]; exact hop), hd, aluWrite_flag_bit s hf]

theorem execNot_flag (hd : destination s2 r1 = ⟨f, .w1⟩) :
    execNot (.register r1 v1) s2 s = .next
      { s with fz := !!decide (v1.nat % 2 = 1), fn := !decide (v1.nat % 2 = 1), fc := false, fo := false } := by
  have hop : notOp .w1 (v1.nat % 2 ^ Width.w1.bits) = plain (!decide (v1.nat % 2 = 1)).toNat := by
    rw [← notOp_w1, ← mod_two_eq_toNat]; rfl
  rw [execNot, hd, hop, plain, aluWrite_flag_bit s hf]

end FlagDestination

/-- Settles O31: each operation is a Boolean function of the operands' low bits, and the flag update alone shows. -/
theorem flagUpdateWinsOverFlagDestination : Obligations.FlagUpdateWinsOverFlagDestination := by
  intro f r1 v1 s2 s3 s hf
  refine ⟨fun n2 h2 hd => ⟨?add, ?sub, ?mul, fun hb => ?div, fun hb => ?divZero, ?and, ?or, ?xor⟩,
    fun n2 h2 hd => ⟨?shl, ?shr⟩, fun hd => ?not⟩
  case add => exact (exec_add ..).trans (alu2_flag hf h2 hd (congrArg some (addOp_w1 _ _)))
  case sub => exact (exec_sub ..).trans (alu2_flag hf h2 hd (congrArg some (subOp_w1 _ _)))
  case mul => exact (exec_mul ..).trans (alu2_flag hf h2 hd (congrArg some (mulOp_w1 _ _)))
  case div => exact (exec_div ..).trans (alu2_flag hf h2 hd (hb ▸ divOp_w1_true _))
  case divZero =>
    have hn : n2 % 2 = 0 := by simpa using hb
    exact (exec_div ..).trans (alu2_raise h2 (by rw [hd]; exact if_pos hn))
  case and => exact (exec_and ..).trans (alu2_flag hf h2 hd (congrArg some (andOp_w1 _ _)))
  case or => exact (exec_or ..).trans (alu2_flag hf h2 hd (congrArg some (orOp_w1 _ _)))
  case xor => exact (exec_xor ..).trans (alu2_flag hf h2 hd (congrArg some (xorOp_w1 _ _)))
  case shl => exact (exec_shl ..).trans (alu2_flag hf h2 hd (congrArg some (shlOp_w1 _ _)))
  case shr => exact (exec_shr ..).trans (alu2_flag hf h2 hd (congrArg some (shrOp_w1 _ _)))
  case not => exact execNot_flag hf hd

/-! ### The frame of the two-source instructions (42_arithmetic.md R138, R139) -/

theorem alu2_frame {op : Width → Nat → Nat → Option AluResult} {second : Slot → Option Nat} {r1 : RegRef}
    {v1 : Value} {s2 s3 : Slot} {s t : State} (h : alu2 op second (.register r1 v1) s2 s3 s = .next t) :
    t = raise .execute s ∨ (Frame ((destination s3 r1).reg :: flagRegs) [] s t ∧
      (t.cell (destination s3 r1).reg).toNat / 2 ^ (destination s3 r1).width.bits =
        (s.cell (destination s3 r1).reg).toNat / 2 ^ (destination s3 r1).width.bits) := by
  rcases alu2_cases op second (.register r1 v1) s2 s3 s with he | ⟨_, _, res, h1, he⟩ <;> rw [h] at he <;> cases he
  · exact .inl rfl
  · cases h1
    exact .inr (aluWrite_frame s _ res)

/-- Settles O32: the nine are the template over their operations, whose frame is known. -/
theorem twoSourceAluFrame : Obligations.TwoSourceAluFrame := by
  intro r1 v1 s2 s3 s t i hi hexec
  simp only [List.mem_cons, List.not_mem_nil, or_false] at hi
  rcases hi with rfl | rfl | rfl | rfl | rfl | rfl | rfl | rfl | rfl <;>
    simp only [exec_add, exec_sub, exec_mul, exec_div, exec_and, exec_or, exec_xor, exec_shl, exec_shr] at hexec <;>
    exact alu2_frame hexec

end Sys2Proof.Machine
end

section
/-! SUPPORT. The bitwise instructions (43_bitwise.md): each operation in Lean's fixed-width arithmetic (R151 to R154), the
whole next state of AND, OR and XOR over the two-source template (R150), and NOT's next state and frame (R154). -/

namespace Sys2Proof.Machine

/-! ### The operations at a width (43_bitwise.md R151 to R154) -/

section Operations
variable {w : Width} (a b : BitVec w.bits)

theorem andOp_toNat : andOp w a.toNat b.toNat = plain (a &&& b).toNat := by
  rw [andOp, BitVec.toNat_and]

theorem orOp_toNat : orOp w a.toNat b.toNat = plain (a ||| b).toNat := by
  rw [orOp, BitVec.toNat_or]

theorem xorOp_toNat : xorOp w a.toNat b.toNat = plain (a ^^^ b).toNat := by
  rw [xorOp, BitVec.toNat_xor]

theorem notOp_toNat : notOp w a.toNat = plain (~~~a).toNat := by
  rw [notOp, BitVec.toNat_not]

end Operations

/-- Settles O19: the template over each of the three operations, which leave carry and overflow 0. -/
theorem bitwiseInstructionsWriteBitwiseResult : Obligations.BitwiseInstructionsWriteBitwiseResult :=
  fun _ _ _ _ _ _ h2 =>
    ⟨(exec_and ..).trans (alu2_next_bits h2 (congrArg some (andOp_toNat _ _))),
      (exec_or ..).trans (alu2_next_bits h2 (congrArg some (orOp_toNat _ _))),
      (exec_xor ..).trans (alu2_next_bits h2 (congrArg some (xorOp_toNat _ _)))⟩

/-! ### NOT (43_bitwise.md R154) -/

/-- On a register NOT is one ALU write of the complement of the truncated operand; slot 2 is the optional destination. -/
theorem exec_not_register (r1 : RegRef) (v1 : Value) (s2 s3 : Slot) (s : State) :
    exec (.not (.register r1 v1) s2 s3) s = .next
      (s.aluWrite (destination s2 r1) (plain (~~~(BitVec.ofNat (destination s2 r1).width.bits v1.nat)).toNat)) := by
  rw [← notOp_toNat, BitVec.toNat_ofNat]
  rfl

/-- Settles O20: the ALU write of an `N`-bit complement, in Lean's fixed-width arithmetic. -/
theorem notWritesComplement : Obligations.NotWritesComplement := fun r1 v1 s2 s3 s =>
  (exec_not_register r1 v1 s2 s3 s).trans (congrArg _ (aluWrite_eq_bits s _ _ _ rfl))

/-- Settles O33: NOT on a register never raises, so its next state is the ALU write, whose frame is known. -/
theorem notFrame : Obligations.NotFrame := by
  intro r1 v1 s2 s3 s t hexec
  cases (exec_not_register r1 v1 s2 s3 s).symm.trans hexec
  exact aluWrite_frame s _ _

end Sys2Proof.Machine
end

section
/-! SUPPORT. The shift instructions (44_shift.md): the amount modulo the width survives the truncation of the second
operand (R163), and each operation is a logical shift in Lean's fixed-width arithmetic (R160 to R162). -/

namespace Sys2Proof.Machine

/-- Every width is a power of two, so it divides the modulus of its own truncation (44_shift.md R163). -/
theorem bits_dvd_two_pow_bits (w : Width) : w.bits ∣ 2 ^ w.bits := by
  cases w <;> decide

/-- The count that a truncated amount gives is the whole amount's (44_shift.md R163). -/
theorem toNat_ofNat_mod_bits (w : Width) (n : Nat) : (BitVec.ofNat w.bits n).toNat % w.bits = n % w.bits := by
  rw [BitVec.toNat_ofNat, Nat.mod_mod_of_dvd n (bits_dvd_two_pow_bits w)]

section Operations
variable {w : Width} (a : BitVec w.bits) (n : Nat)

theorem shlOp_toNat : shlOp w a.toNat (BitVec.ofNat w.bits n).toNat = plain (a <<< (n % w.bits)).toNat := by
  rw [shlOp, toNat_ofNat_mod_bits, BitVec.toNat_shiftLeft, Nat.shiftLeft_eq]

theorem shrOp_toNat : shrOp w a.toNat (BitVec.ofNat w.bits n).toNat = plain (a >>> (n % w.bits)).toNat := by
  rw [shrOp, toNat_ofNat_mod_bits, BitVec.toNat_ushiftRight, Nat.shiftRight_eq_div_pow]

end Operations

/-- Settles O21: the template over each shift by the whole amount's count, which leaves carry and overflow 0. -/
theorem shiftsMaskTheCountToTheWidth : Obligations.ShiftsMaskTheCountToTheWidth := fun _ _ _ _ _ _ h2 =>
  ⟨(exec_shl ..).trans (alu2_next_bits h2 (congrArg some (shlOp_toNat _ _))),
    (exec_shr ..).trans (alu2_next_bits h2 (congrArg some (shrOp_toNat _ _)))⟩

end Sys2Proof.Machine
end

section
/-! SUPPORT. The load and store instructions on two registers, at an address on either side of `MEMCAP`
(45_load_store.md R166, R167; 20_memory.md R52, R53), with the cell brought to the width it is copied to (R57). -/

namespace Sys2Proof.Machine

/-- A cell read through a view is its low bits. -/
theorem trunc_word_eq_setWidth (w : Width) (v : Word) : trunc w v.toNat = (v.setWidth w.bits).setWidth 128 := by
  rw [trunc_eq_setWidth, BitVec.ofNat_toNat]

section TwoRegisters
variable (r1 r2 : RegRef) (v1 v2 : Value) (s3 : Slot) {s : State}

theorem exec_st_inRange (h : v1.nat < s.cfg.memcap) :
    exec (.st (.register r1 v1) (.register r2 v2) s3) s =
      .next { s with mem := Memory.write s.mem v1.nat (trunc s.cfg.w v2.nat) } := by
  simp [exec, execSt, memWrite_inRange _ h]

theorem exec_st_outOfRange (h : s.cfg.memcap ≤ v1.nat) :
    exec (.st (.register r1 v1) (.register r2 v2) s3) s = .next (raise .memoryWrite s) := by
  simp [exec, execSt, memWrite_outOfRange _ h]

theorem exec_ld_inRange (h : v2.nat < s.cfg.memcap) :
    exec (.ld (.register r1 v1) (.register r2 v2) s3) s =
      .next (s.writeReg r1 (((Memory.read s.mem v2.nat).setWidth r1.width.bits).setWidth 128)) := by
  simp [exec, execLd, memRead_inRange h, trunc_word_eq_setWidth]

theorem exec_ld_outOfRange (h : s.cfg.memcap ≤ v2.nat) :
    exec (.ld (.register r1 v1) (.register r2 v2) s3) s = .next (raise .memoryRead s) := by
  simp [exec, execLd, memRead_outOfRange h]

end TwoRegisters

/-- Settles O22: in range ST is one write of the memory, with its read-back and its frame; any other tag is a disallowed
one. -/
theorem stStoresAtRegisterAddress : Obligations.StStoresAtRegisterAddress := by
  refine ⟨fun ra rv va vv s3 s hwf => ⟨fun ha => ?inRange, exec_st_outOfRange ra rv va vv s3⟩,
    fun _ _ _ s h => disallowedTagsRaiseExecute _ s h⟩
  have hread : Memory.read (Memory.write s.mem va.nat (trunc s.cfg.w vv.nat)) va.nat =
      (BitVec.ofNat s.cfg.w.bits vv.nat).setWidth 128 :=
    (Memory.read_write_same hwf).trans (trunc_eq_setWidth s.cfg.w vv.nat)
  exact ⟨_, exec_st_inRange ra rv va vv s3 ha, hread, memWrite_frame s va.nat _⟩

/-- Settles O23: the two sides of the bound; any other tag is a disallowed one. -/
theorem ldLoadsFromRegisterAddress : Obligations.LdLoadsFromRegisterAddress :=
  ⟨fun rd ra vd va s3 _ => ⟨exec_ld_inRange rd ra vd va s3, exec_ld_outOfRange rd ra vd va s3⟩,
    fun _ _ _ s h => disallowedTagsRaiseExecute _ s h⟩

end Sys2Proof.Machine
end

section
/-! SUPPORT. WDM and the pixel-store port: the two bytes of an operand word (46_pixel.md R170), and a transaction on either
side of the display's bounds (R171). -/

namespace Sys2Proof.Machine

@[simp] theorem highByte_toNat (n : Nat) : (highByte n).toNat = n / 256 % 256 := BitVec.toNat_ofNat (n / 256) 8

@[simp] theorem lowByte_toNat (n : Nat) : (lowByte n).toNat = n % 256 := BitVec.toNat_ofNat n 8

section Pixel
variable {s : State}

theorem setPixel_inside {p : SetPixel} (hx : p.x.toNat < s.cfg.dw) (hy : p.y.toNat < s.cfg.dh) :
    s.setPixel p = some { s with pixels := s.pixels ++ [p] } :=
  if_neg (not_or.mpr ⟨Nat.not_le.mpr hx, Nat.not_le.mpr hy⟩)

theorem setPixel_outside {p : SetPixel} (h : s.cfg.dw ≤ p.x.toNat ∨ s.cfg.dh ≤ p.y.toNat) : s.setPixel p = none :=
  if_pos h

variable {s1 s2 s3 : Slot} {rg ba xy : Nat}

theorem exec_wdm_accepted {t : State} (h1 : sourceRIM s1 = some rg) (h2 : sourceRIM s2 = some ba)
    (h3 : sourceRIM s3 = some xy) (hp : s.setPixel (pixelOf rg ba xy) = some t) :
    exec (.wdm s1 s2 s3) s = .next t := by simp [exec, execWdm, h1, h2, h3, hp]

theorem exec_wdm_rejected (h1 : sourceRIM s1 = some rg) (h2 : sourceRIM s2 = some ba) (h3 : sourceRIM s3 = some xy)
    (hp : s.setPixel (pixelOf rg ba xy) = none) : exec (.wdm s1 s2 s3) s = .next (raise .display s) := by
  simp [exec, execWdm, h1, h2, h3, hp]

end Pixel

/-- Settles O24: the transaction is `pixelOf` of the three words, and the port takes it exactly inside the display. -/
theorem wdmSendsOnePixel : Obligations.WdmSendsOnePixel := by
  intro s1 s2 s3 rg ba xy s h1 h2 h3 x y
  have hx : (pixelOf rg ba xy).x.toNat = x := highByte_toNat xy
  have hy : (pixelOf rg ba xy).y.toNat = y := lowByte_toNat xy
  rw [← hx, ← hy]
  refine ⟨fun ⟨hdw, hdh⟩ => ⟨pixelOf rg ba xy, ?sent, rfl, rfl, ?colour⟩, fun hout => ?display⟩
  case sent => exact exec_wdm_accepted h1 h2 h3 (setPixel_inside hdw hdh)
  case colour => exact ⟨highByte_toNat rg, lowByte_toNat rg, highByte_toNat ba, lowByte_toNat ba⟩
  case display => exact exec_wdm_rejected h1 h2 h3 (setPixel_outside hout)

end Sys2Proof.Machine
end

section
/-! SUPPORT. Control transfer and halt (47_control.md): a jump taken to a declared and to an undeclared label (R176 to
R178), what a jump and WDM can do at all, HALT (R180) and the unrecognised opcode (R183). -/

namespace Sys2Proof.Machine

/-! ### A jump taken and not taken (47_control.md R176 to R178) -/

section Jumps
variable {name : List Char} {s : State}

theorem jumpTo_of_declared {t : Nat} (h : s.label name = some t) : jumpTo name s = s.setPc t := by
  simp [jumpTo, h]

theorem jumpTo_of_undeclared (h : s.label name = none) : jumpTo name s = raise .execute s := by
  simp [jumpTo, h]

variable (s2 s3 : Slot)

theorem exec_jiz_taken (h : s.fz = true) : exec (.jiz (.symbol name) s2 s3) s = .next (jumpTo name s) := by
  simp [exec, execJiz, h]

theorem exec_jin_taken (h : s.fn = true) : exec (.jin (.symbol name) s2 s3) s = .next (jumpTo name s) := by
  simp [exec, execJin, h]

theorem exec_jiz_untaken (h : s.fz = false) : exec (.jiz (.symbol name) s2 s3) s = .next s := by
  simp [exec, execJiz, h]

theorem exec_jin_untaken (h : s.fn = false) : exec (.jin (.symbol name) s2 s3) s = .next s := by
  simp [exec, execJin, h]

/-- The three jumps, when taken, are one operation. -/
theorem exec_takenJumps {t : State} (h : jumpTo name s = t) :
    exec (.jmp (.symbol name) s2 s3) s = .next t ∧
    (s.fz = true → exec (.jiz (.symbol name) s2 s3) s = .next t) ∧
    (s.fn = true → exec (.jin (.symbol name) s2 s3) s = .next t) :=
  h ▸ ⟨rfl, exec_jiz_taken s2 s3, exec_jin_taken s2 s3⟩

end Jumps

/-- Settles O25: the label table gives the last declaring line's number, which fits `pc`. -/
theorem takenJumpsGoToTheLineAfterTheLabel : Obligations.TakenJumpsGoToTheLineAfterTheLabel := by
  intro n s2 s3 s i l hlaunch hl hdeclares hlast
  have hlabel : s.label n = some (i + 1) :=
    ((labelTableGivesLastDeclaringLine s.cfg.cmt n s.prog).1 (i + 1)).mpr ⟨i, l, rfl, hl, hdeclares, hlast⟩
  have hi : i + 1 ≤ s.prog.length := (List.getElem?_eq_some_iff.mp hl).1
  exact exec_takenJumps s2 s3 ((jumpTo_of_declared hlabel).trans (setPc_lineIndex hlaunch hi))

/-- Settles O27: the label table has no entry, so each jump taken raises. -/
theorem jumpsToMissingLabelsRaise : Obligations.JumpsToMissingLabelsRaise := by
  intro n s2 s3 s hnone
  have hlabel : s.label n = none := (labelTableGivesLastDeclaringLine s.cfg.cmt n s.prog).2.mpr hnone
  exact exec_takenJumps s2 s3 (jumpTo_of_undeclared hlabel)

/-- Settles O26: a jump not taken never asks for its label. -/
theorem untakenJumpsChangeNothing : Obligations.UntakenJumpsChangeNothing :=
  fun _ s2 s3 _ => ⟨exec_jiz_untaken s2 s3, exec_jin_untaken s2 s3⟩

/-! ### What a jump and WDM can do at all -/

/-- A jump raises Execute only, writes `pc`, or falls through. -/
theorem Effect.jump_cases {i : Instr} {s t : State} (h : Effect i s t)
    (ho : i.opcode = .jmp ∨ i.opcode = .jiz ∨ i.opcode = .jin) :
    t = raise .execute s ∨ t = s ∨ ∃ n, t = s.setPc n := by
  have hne : i.opcode ∉ [Opcode.mov, .st, .ld, .wdm, .halt] ∧ Opcode.isAlu i.opcode = false := by
    rcases ho with ho | ho | ho <;> rw [ho] <;> decide
  simp only [List.mem_cons, List.not_mem_nil, or_false, not_or] at hne
  obtain ⟨⟨hmov, hst, hld, hwdm, hhalt⟩, hnalu⟩ := hne
  cases h with
  | error k hk =>
    cases hk with
    | execute => exact .inl rfl
    | load hi => exact absurd hi hld
    | store hi => exact absurd hi hst
    | move _ _ hi => exact absurd hi hmov
    | display hi => exact absurd hi hwdm
  | jump n => exact .inr (.inr ⟨n, rfl⟩)
  | fallThrough => exact .inr (.inl rfl)
  | stop hi => exact absurd hi hhalt
  | alu _ _ _ hi => simp [hnalu] at hi
  | copy _ _ _ hi => exact absurd hi (not_or.mpr ⟨hmov, hld⟩)
  | store _ _ _ hi => exact absurd (hi.imp And.left And.left) (not_or.mpr ⟨hmov, hst⟩)
  | pixel _ hi => exact absurd hi hwdm

theorem Effect.jump_frame {i : Instr} {s t : State} (h : Effect i s t)
    (ho : i.opcode = .jmp ∨ i.opcode = .jiz ∨ i.opcode = .jin) : t = raise .execute s ∨ Frame [.pc] [] s t := by
  rcases h.jump_cases ho with hraise | rfl | ⟨n, rfl⟩
  · exact .inl hraise
  · exact .inr (Frame.refl _ _ t)
  · exact .inr (setPc_frame s n)

/-- WDM raises or sends one transaction. -/
theorem Effect.pixel_cases {i : Instr} {s t : State} (h : Effect i s t) (ho : i.opcode = .wdm) :
    (∃ k, t = raise k s) ∨ ∃ p, t = { s with pixels := s.pixels ++ [p] } := by
  cases h with
  | error k => exact .inl ⟨k, rfl⟩
  | pixel p => exact .inr ⟨p, rfl⟩
  | alu _ _ _ hi => simp [ho, Opcode.isAlu] at hi
  | stop hi | copy _ _ _ hi | store _ _ _ hi | jump _ hi | fallThrough hi => simp [ho] at hi

/-- Settles O36: the three jumps have the jumps' effects, and WDM its own. -/
theorem jumpAndPixelFrame : Obligations.JumpAndPixelFrame := by
  refine ⟨fun s1 s2 s3 s t i hi hexec => (effect_of_exec hexec).jump_frame ?_,
    fun _ _ _ _ _ hexec => (effect_of_exec hexec).pixel_cases rfl⟩
  simp only [List.mem_cons, List.not_mem_nil, or_false] at hi
  rcases hi with rfl | rfl | rfl
  · exact .inl rfl
  · exact .inr (.inl rfl)
  · exact .inr (.inr rfl)

/-! ### HALT and the unrecognised opcode (47_control.md R180, R183) -/

/-- Settles O28: HALT's meaning is `halt`. -/
theorem haltOnlyStopsTheCycle : Obligations.HaltOnlyStopsTheCycle :=
  fun _ _ _ s => ⟨halt s, rfl, rfl⟩

/-- A line that has tokens parses to its keyword's opcode and its classified operands (30_encoding.md R76 to R82). -/
theorem parseLine_of_tokens {cmt : List Char} {l : Line} {kw : List Char} {args : List (List Char)}
    (h : tokens cmt l = some (kw, args)) :
    parseLine cmt l = some ⟨opcodeOf kw, classify cmt (args.getD 0 []), classify cmt (args.getD 1 []),
      classify cmt (args.getD 2 [])⟩ := by
  rw [parseLine, h, Option.map_some]

/-- Settles O29: no keyword matches, so the opcode is the sentinel, whose format allows no tags at all. -/
theorem unrecognisedOpcodesRaiseExecute : Obligations.UnrecognisedOpcodesRaiseExecute :=
  ⟨fun _ _ _ _ htokens hkw => opcodeOf_eq_unrecognised hkw ▸ parseLine_of_tokens htokens,
    fun _ _ _ s => disallowedTagsRaiseExecute _ s rfl⟩

end Sys2Proof.Machine
end

section
/-! SUPPORT. The error kinds a tick reports (60_exceptions.md R186): every stage, every cycle and every batch raises
only kinds the spec gives a cause, and MemoryWrite comes from ST alone. -/

namespace Sys2Proof.Machine

/-- The kinds the spec gives a cause: all but Fetch, Decode and RegisterWrite (60_exceptions.md R186). -/
def causedKinds : List ErrorKind := [.execute, .memoryRead, .memoryWrite, .registerRead, .display]

/-- `ERR` is empty or holds a kind with a cause. -/
def State.ErrCaused (s : State) : Prop := ∀ k, s.err = some k → k ∈ causedKinds

theorem State.ErrCaused.of_none {s : State} (h : s.err = none) : s.ErrCaused := by simp [State.ErrCaused, h]

theorem State.ErrCaused.of_err_eq {s t : State} (h : s.ErrCaused) (ht : t.err = s.err) : t.ErrCaused := by
  rwa [State.ErrCaused, ht]

theorem State.ErrCaused.of_mem {s : State} {k : ErrorKind} (hk : k ∈ causedKinds) (h : s.err = some k) :
    s.ErrCaused := by
  rintro k' hk'
  cases h.symm.trans hk'
  exact hk

/-! ### Decode -/

/-- A Capturable line parses, as it has an opcode token (40_pipeline.md R105). -/
theorem parseLine_ne_none_of_capturable {cmt : List Char} {l : Line} (h : lineClass cmt l = .capturable) :
    parseLine cmt l ≠ none := by
  obtain ⟨kw, args, hw⟩ := List.exists_cons_of_ne_nil (words_of_capturable h)
  have htokens : tokens cmt l = some (kw, args.takeWhile fun t => !cmt.isPrefixOf t) := by rw [tokens, hw]
  simp [parseLine_of_tokens htokens]

theorem fetchStage_capLine {s : State} (h : (fetchStage s).cyc = .decode) :
    lineClass (fetchStage s).cfg.cmt (fetchStage s).cap = .capturable := by
  rcases fetchStage_cases s with ⟨i, l, -, -, hcap, -, hf⟩ | ⟨-, hf⟩ <;> rw [hf] at h ⊢
  · exact hcap
  · cases h

/-- Decode of a Capturable line fails by an operand only (40_pipeline.md R107). -/
theorem State.ErrCaused.decodeStage {s : State} (h : s.ErrCaused) (hcap : lineClass s.cfg.cmt s.cap = .capturable) :
    (decodeStage s).ErrCaused := by
  rcases decodeStage_cases s with ⟨hp, -⟩ | ⟨src, k, -, hk, hd⟩ | ⟨src, i, -, -, hd⟩
  · exact absurd hp (parseLine_ne_none_of_capturable hcap)
  · have hmem : k ∈ causedKinds := by rcases resolveAll_error hk with rfl | rfl <;> decide
    exact .of_mem hmem (by rw [hd, decodeError_err])
  · exact h.of_err_eq (by rw [hd])

/-! ### Execute -/

/-- An effect leaves `ERR`, or raises a kind for one of the instruction's causes. -/
theorem Effect.err_cases {i : Instr} {s t : State} (h : Effect i s t) :
    t.err = s.err ∨ ∃ k, t.err = some k ∧ ErrorCause i s k := by
  cases h with
  | error k hk => exact .inr ⟨k, rfl, hk⟩
  | stop | alu | copy | store | pixel | jump | fallThrough => exact .inl (by simp)

/-- What the Execute stage leaves in `ERR`. -/
theorem executeStage_err {s t : State} (ht : executeStage s = .next t) :
    t.err = s.err ∨ ∃ k, t.err = some k ∧ ErrorCause s.ir s k := by
  obtain ⟨u, hu, -, he⟩ := executeStage_next s
  obtain ⟨-, -, herr, -⟩ := afterExecute_kept u
  cases hu.symm.trans ht
  rw [herr]
  exact he.err_cases

theorem State.ErrCaused.executeStage {s t : State} (h : s.ErrCaused) (ht : executeStage s = .next t) :
    t.ErrCaused := by
  rcases executeStage_err ht with herr | ⟨k, herr, hk⟩
  · exact h.of_err_eq herr
  · have hsub : [ErrorKind.execute, .memoryRead, .memoryWrite, .display] ⊆ causedKinds := by decide
    exact .of_mem (hsub hk.kind_mem) herr

/-- MOV's address was checked against `MEMCAP` when Decode read the cell (40_pipeline.md R106), so only ST is left. -/
theorem ErrorCause.memoryWrite_opcode {i : Instr} {s : State} (hi : i.wellFormed s.cfg = true)
    (h : ErrorCause i s .memoryWrite) : i.opcode = .st := by
  cases h with
  | store ho => exact ho
  | move a v _ hslot ha =>
    have hok := wellFormed_slot hi (.inl hslot.symm)
    simp only [Slot.ok, Bool.and_eq_true, decide_eq_true_eq] at hok
    exact absurd hok.1.1 (Nat.not_lt.mpr ha)

/-! ### The batch and the tick -/

theorem State.ErrCaused.runCycle {s t : State} (h : s.ErrCaused) (ht : runCycle s = .next t) : t.ErrCaused := by
  obtain ⟨-, -, herr, hcyc⟩ := fetchStage_kept s
  have hf : (fetchStage s).ErrCaused := h.of_err_eq herr
  simp only [Machine.runCycle] at ht
  split_ifs at ht with hfh hdh
  · exact Host.Outcome.next.inj ht ▸ hf
  · exact Host.Outcome.next.inj ht ▸ hf.decodeStage (fetchStage_capLine (hcyc.resolve_right hfh))
  · exact (hf.decodeStage (fetchStage_capLine (hcyc.resolve_right hfh))).executeStage ht

/-- A batch raises only kinds with a cause, by induction on the cycles that are left. -/
theorem State.ErrCaused.runBatch : ∀ {n : Nat} {s t : State}, s.ErrCaused → runBatch n s = .next t → t.ErrCaused
  | 0, _, _, h, ht => Host.Outcome.next.inj ht ▸ h
  | n + 1, s, t, h, ht => by
    obtain ⟨u, hu, -, -⟩ := runCycle_kept s
    have hcaused := h.runCycle hu
    simp only [Machine.runBatch, hu] at ht
    split_ifs at ht with hh
    · exact Host.Outcome.next.inj ht ▸ hcaused
    · exact State.ErrCaused.runBatch hcaused ht

/-- One case per cycle state (40_pipeline.md R102); Decode holds the line Fetch captured. -/
theorem State.ErrCaused.tick {s t : State} (h : s.ErrCaused)
    (hcap : s.cyc = .decode → lineClass s.cfg.cmt s.cap = .capturable) (ht : tick s = .next t) : t.ErrCaused := by
  cases hc : s.cyc <;> simp only [Machine.tick, hc] at ht
  case startup | halt => exact Host.Outcome.next.inj ht ▸ h
  case fetch =>
    obtain ⟨-, -, herr, -⟩ := fetchStage_kept s
    exact Host.Outcome.next.inj ht ▸ h.of_err_eq herr
  case decode => exact Host.Outcome.next.inj ht ▸ h.decodeStage (hcap hc)
  case execute => exact h.executeStage ht
  case autoStep => exact h.runBatch ht

/-- Settles O56: `ERR` is empty before the tick, and the tick raises only kinds with a cause; the cause of MemoryWrite
is ST's, as the latched instruction is well formed. -/
theorem causelessErrorKindsNeverArise : Obligations.CauselessErrorKindsNeverArise := by
  intro s t h hnh ht
  have hnone := h.err_none hnh
  rw [step_launched h.launch] at ht
  have hcaused : t.ErrCaused := (State.ErrCaused.of_none hnone).tick h.capLine ht
  have hno (k : ErrorKind) (hk : k ∉ causedKinds) : t.err ≠ some k := fun he => hk (hcaused k he)
  refine ⟨hno _ (by decide), hno _ (by decide), hno _ (by decide), fun hc he => ?_⟩
  simp only [tick, hc] at ht
  rcases executeStage_err ht with herr | ⟨k, herr, hk⟩
  · simp [herr, hnone] at he
  · cases herr.symm.trans he
    exact hk.memoryWrite_opcode (h.irFits hc)

end Sys2Proof.Machine
end

section
/-! SUPPORT. RESET, the setup step and LOAD (70_reset_and_hazards.md R215 to R218): what each leaves, and which launches
are refused. -/

namespace Sys2Proof.Machine

/-! ### The refusals -/

theorem launchRefusal_illegal {c : Config} (h : c.legal = false) (prog : List Line) :
    launchRefusal c prog = some .illegalConfiguration := by
  simp [launchRefusal, h]

theorem launchRefusal_notAscii {c : Config} (hc : c.legal = true) {prog : List Line}
    (h : (prog.all fun l => l.all isAscii) = false) : launchRefusal c prog = some .programNotAscii := by
  simp [launchRefusal, hc, h]

theorem launchRefusal_tooLong {c : Config} (hc : c.legal = true) {prog : List Line}
    (hascii : (prog.all fun l => l.all isAscii) = true) (h : 2 ^ c.w.bits ≤ prog.length) :
    launchRefusal c prog = some .programTooLong := by
  have hlt : 2 ^ c.w.bits - 1 < prog.length := Nat.sub_one_lt_of_le (Nat.two_pow_pos _) h
  simp [launchRefusal, hc, hascii, hlt]

theorem launchRefusal_fits {c : Config} (hc : c.legal = true) {prog : List Line}
    (hascii : (prog.all fun l => l.all isAscii) = true) (h : prog.length < 2 ^ c.w.bits) :
    launchRefusal c prog = none :=
  launch_iff.mpr ⟨hc, by simpa using hascii, by omega⟩

/-! ### RESET and the setup step -/

/-- No register exists in Startup (10_state.md R42). -/
theorem lookup_startup {s : State} (hs : s.cyc = .startup) (n : List Char) : s.lookup n = none := if_pos hs

/-- Settles O49: the fields of `State.resetWith`; an illegal configuration has no launch. -/
theorem resetLeavesTheStatedValues : Obligations.ResetLeavesTheStatedValues := by
  intro c s
  rw [hostEvent_reset]
  refine ⟨fun hc => ?_, fun hc => ?_⟩
  · rw [launchRefusal_nil hc]
    exact ⟨_, rfl, rfl, rfl, fun _ => rfl, rfl, rfl, rfl, rfl, lookup_startup rfl⟩
  · rw [launchRefusal_illegal hc]

theorem cell_setupStep (s : State) (r : Reg) : (setupStep s).cell r = 0 := by
  cases r with
  | gpr i => exact replicate_zero_get i
  | pc | mar | mdr | fz | fn | fc | fo => rfl

/-- Settles O50: the tick in Startup is `setupStep`, which leaves Startup and so populates the Register File. -/
theorem setupStepZeroesTheRegisters : Obligations.SetupStepZeroesTheRegisters := by
  intro s hlaunch hc
  exact ⟨setupStep s, step_startup hlaunch hc, rfl, cell_setupStep s, rfl, rfl, rfl, ⟨rfl, rfl, rfl, rfl, rfl⟩,
    lookup_eq_lookupName (s := setupStep s) nofun⟩

/-! ### LOAD -/

/-- LOAD keeps every register but `pc` (70_reset_and_hazards.md R217). -/
theorem loadLines_sameRegs (prog : List Line) (s : State) : sameRegsBut [.pc] s (loadLines prog s) := by
  intro r hr
  cases r with
  | pc => simp at hr
  | mar | mdr | fz | fn | fc | fo | gpr => rfl

/-- LOAD restarts a machine that is set up, at the first line. -/
theorem loadLines_restarts (prog : List Line) {s : State} (hs : s.cyc ≠ .startup) :
    (loadLines prog s).pc = 0 ∧ (loadLines prog s).cyc = .fetch := ⟨if_neg hs, if_neg hs⟩

theorem loadLines_startup (prog : List Line) {s : State} (hs : s.cyc = .startup) :
    (loadLines prog s).cyc = .startup := if_pos hs

/-- Settles O51: a text with a meaning is loaded by `loadLines`; the two refusals come before it. -/
theorem loadStartsANewRun : Obligations.LoadStartsANewRun := by
  intro text s hc
  rw [hostEvent_load, ← cutLines_ascii]
  refine ⟨fun hascii hlen => ?_, fun ⟨b, hb, hge⟩ => ?_, fun hascii hlen => ?_⟩
  · rw [launchRefusal_fits hc hascii hlen]
    exact ⟨_, rfl, rfl, loadLines_restarts _, loadLines_startup _, rfl, rfl, rfl, loadLines_sameRegs _ s,
      rfl, rfl, rfl⟩
  · have hascii : ¬ (cutLines (textOf text)).all (fun l => l.all isAscii) = true := fun h =>
      absurd ((cutLines_ascii text).mp h b hb) (Nat.not_lt.mpr hge)
    rw [launchRefusal_notAscii hc (Bool.not_eq_true _ ▸ hascii)]
  · rw [launchRefusal_tooLong hc hascii hlen]

end Sys2Proof.Machine
end
